-- ==== Sys2Proof/Word.lean ====
section
/-! DEFINITION. The widths of the block (00_scope.md R7, R8): names only, no arithmetic of their own. -/

namespace Sys2Proof

/-- A byte of BUF, an opcode, the SAK, the BCC (R8). -/
abbrev Byte := BitVec 8

/-- A 16-bit address, count or CRC value (R7). -/
abbrev Half := BitVec 16

/-- A register of the register space, and a command word (R7, R80). -/
abbrev Word := BitVec 32

/-- The scalar operand OPA and the result RES (R7). -/
abbrev DWord := BitVec 64

end Sys2Proof
end

