-- ==== Sys2Proof/Syntax.lean ====
section
/-! DEFINITION. The commands of the block, the rows of 30_encoding.md R82 (spec/opcode_table.json). A command word carries
no operand (R80, R83), so no constructor has an argument. -/

namespace Sys2Proof

/-- One constructor per command, in the order of R82; the rule of its meaning beside it. -/
inductive Instr where
  /-- R106 -/
  | nop
  /-- R123 -/
  | par
  /-- R124 -/
  | parbuf
  /-- R126 -/
  | parchk
  /-- R141 -/
  | mir8
  /-- R143 -/
  | mirbuf
  /-- R145 -/
  | mir32
  /-- R147 -/
  | mir64
  /-- R148 -/
  | swp32
  /-- R149 -/
  | swp64
  /-- R163 -/
  | crca
  /-- R166 -/
  | crcv
  /-- R185 -/
  | cfg
  /-- R186 -/
  | classify
  /-- R187, R188 -/
  | handle
  /-- R203 -/
  | bpack
  /-- R205 -/
  | bshr
  /-- R207 -/
  | bshl
  /-- R209 -/
  | wrap
  /-- R213 -/
  | unwrap
  deriving DecidableEq, Repr

end Sys2Proof
end

