-- ==== Sys2Proof/Bus.lean ====
section
/-! DEFINITION. The host side of the bus as data: the registers of the register space by name (10_state.md R22), the
accesses the host can make (20_memory.md R64, R68) and what a read returns (30_encoding.md R89). -/

namespace Sys2Proof

/-- The named registers of 10_state.md R22, in offset order. -/
inductive Reg where
  | cmd | status | ctrl | src | dst | len | padr | shamt
  | opaLo | opaHi | resLo | resHi | crc
  | uid | atqa | sak | iuid | iatqa | isak | bcc | sakcrc | rlen | cmdcnt
  deriving DecidableEq, Repr

/-- The access column of R22: R (host read only), W (host write only), RW. -/
inductive RegAccess where
  | readOnly | writeOnly | readWrite
  deriving DecidableEq, Repr

/-- The two address spaces of the block (20_memory.md R61). -/
inductive Space where
  | reg | buf
  deriving DecidableEq, Repr

/-- One thing the host (or the reset pin) does to the block. -/
inductive Access where
  /-- a 32-bit read at byte offset `off` of REG -/
  | regRead (off : Nat)
  /-- a 32-bit write of `v` at byte offset `off` of REG -/
  | regWrite (off : Nat) (v : Word)
  /-- an 8-bit read of BUF address `addr` -/
  | bufRead (addr : Nat)
  /-- an 8-bit write of `b` to BUF address `addr` -/
  | bufWrite (addr : Nat) (b : Byte)
  /-- an access of any width that R64 does not give the space; its behaviour is unspecified -/
  | otherWidth (space : Space) (addr : Nat)
  /-- a hardware reset (70_reset_and_hazards.md R260), from outside (log 8) -/
  | hardReset
  deriving DecidableEq, Repr

/-- What a host read returned: the right side of `REG+off -> v` or `BUF[a] -> b` (30_encoding.md R89). -/
inductive Returned where
  | reg (v : Word)
  | buf (b : Byte)
  deriving DecidableEq, Repr

end Sys2Proof
end

