-- ==== Sys2Proof/Config.lean ====
section
/-! DEFINITION. What is fixed for one instance of the block, the constants the rules fix, and the one free value. -/

namespace Sys2Proof

/-- The parameter of the block (00_scope.md R6). `State` carries it so that every statement quantifies over it;
no step changes it (log 3). -/
structure Config where
  /-- BUF_BYTES, the size of BUF in bytes. -/
  bufBytes : Nat
  deriving DecidableEq, Repr

/-- BUF_BYTES = 256, the value every vector of 95_test_vectors.md assumes (R6). DESIGN CHOICE, log 3. -/
def Config.ofVectors : Config := { bufBytes := 256 }

/-- FREE VALUE (log 4): the byte that BUF address `addr` holds after the hardware reset number `draw`, until it is
written: "an arbitrary value, drawn once at reset and held until the byte is written" (70_reset_and_hazards.md R262). -/
opaque Config.powerOnByte (draw addr : Nat) : Byte

/-- The size of the register space REG in bytes (10_state.md R22). -/
def Config.regSpaceBytes : Nat := 0x80

/-- The largest 16-bit bit count (00_scope.md R7, 45_bitbuffer.md R210). -/
def Config.maxBitCount : Nat := 65535

/-- The CRC-A polynomial in reflected form (00_scope.md R3, 43_crc_a.md R160). -/
def Config.crcPoly : Half := 0x8408#16

/-- The CRC-A seed (00_scope.md R3, 43_crc_a.md R161), which is also the reset value of CRC (10_state.md R36). -/
def Config.crcSeed : Half := 0x6363#16

end Sys2Proof
end

