-- ==== Sys2Proof/WellFormed.lean ====
section
/-! DEFINITION. Which terms the spec gives a meaning: instructions, parameters, host accesses. -/

namespace Sys2Proof

/-- A command carries no operand field (30_encoding.md R83), so every constructor is well-formed as it stands; what a
command asks of its REGISTERS is checked when it runs (60_exceptions.md R235). -/
def Instr.wellFormed : Instr → Bool
  | .nop | .par | .parbuf | .parchk | .mir8 | .mirbuf | .mir32 | .mir64 | .swp32 | .swp64
  | .crca | .crcv | .cfg | .classify | .handle | .bpack | .bshr | .bshl | .wrap | .unwrap => true

/-- 64 ≤ BUF_BYTES ≤ 65536 (00_scope.md R6). -/
def Config.wellFormed (c : Config) : Bool := decide (64 ≤ c.bufBytes) && decide (c.bufBytes ≤ 65536)

/-- A REG access R64 gives a meaning: at a multiple of 4 below 0x80 (its 32 bits are in the constructor). -/
def regOffsetWellFormed (off : Nat) : Bool := decide (off % 4 = 0) && decide (off < Config.regSpaceBytes)

/-- A host access that 20_memory.md R64 gives a meaning. A hardware reset always has one (R260). -/
def Access.wellFormed (c : Config) : Access → Bool
  | .regRead off => regOffsetWellFormed off
  | .regWrite off _ => regOffsetWellFormed off
  | .bufRead addr => decide (addr < c.bufBytes)
  | .bufWrite addr _ => decide (addr < c.bufBytes)
  | .otherWidth _ _ => false
  | .hardReset => true

end Sys2Proof
end

