-- ==== Sys2Proof/Decode.lean ====
section
/-! DEFINITION. The command word (30_encoding.md R80 to R86): the opcode map, the decoder and the encoder. -/

namespace Sys2Proof

/-- The opcode map, row for row as R82 prints it. -/
def opcodeMap : List (Byte × Instr) :=
  [(0x00#8, .nop), (0x01#8, .par), (0x02#8, .parbuf), (0x03#8, .parchk)]
  ++ [(0x10#8, .mir8), (0x11#8, .mirbuf), (0x12#8, .mir32), (0x13#8, .mir64)]
  ++ [(0x18#8, .swp32), (0x19#8, .swp64)]
  ++ [(0x20#8, .crca), (0x21#8, .crcv)]
  ++ [(0x30#8, .cfg), (0x31#8, .classify), (0x32#8, .handle)]
  ++ [(0x40#8, .bpack), (0x41#8, .bshr), (0x42#8, .bshl), (0x43#8, .wrap), (0x44#8, .unwrap)]

/-- Why a word is no command (R81, R85); either way the command faults ILLCMD. -/
inductive Reject where
  /-- w[31:8] ≠ 0 -/
  | reservedBits
  /-- w[7:0] is not in the opcode map -/
  | unassignedOpcode
  deriving DecidableEq, Repr

/-- OPC, bits [7:0] of a command word (R80). -/
def opcField (w : Word) : Byte := w.extractLsb' 0 8

/-- RSV, bits [31:8] of a command word (R80). -/
def rsvField (w : Word) : BitVec 24 := w.extractLsb' 8 24

/-- The first row of a map with this opcode. -/
def findOpcode (opc : Byte) : List (Byte × Instr) → Option Instr
  | [] => none
  | (o, i) :: rest => if o = opc then some i else findOpcode opc rest

/-- Decoding (R81), total on every 32-bit word. -/
def decode (w : Word) : Except Reject Instr :=
  if rsvField w = 0#24 then
    match findOpcode (opcField w) opcodeMap with
    | some i => .ok i
    | none => .error .unassignedOpcode
  else .error .reservedBits

/-- The opcode R82 gives a command. -/
def opcodeOf : Instr → Byte
  | .nop => 0x00#8 | .par => 0x01#8 | .parbuf => 0x02#8 | .parchk => 0x03#8
  | .mir8 => 0x10#8 | .mirbuf => 0x11#8 | .mir32 => 0x12#8 | .mir64 => 0x13#8
  | .swp32 => 0x18#8 | .swp64 => 0x19#8
  | .crca => 0x20#8 | .crcv => 0x21#8
  | .cfg => 0x30#8 | .classify => 0x31#8 | .handle => 0x32#8
  | .bpack => 0x40#8 | .bshr => 0x41#8 | .bshl => 0x42#8 | .wrap => 0x43#8 | .unwrap => 0x44#8

/-- The command word of a command: RSV zero above OPC (R80). -/
def encode (i : Instr) : Word := 0#24 ++ opcodeOf i

/-- The word a table row's bits make: `w` cut to `nbits` bits, every higher bit 0. -/
def tableBits (nbits w : Nat) : Nat := w % 2 ^ nbits

/-- The instruction the decoder reads from a table word. A command word is 32 bits written at once (R86), so bit n of
the table is bit n of the word, and a number that needs more than 32 bits is no command word (log 10). -/
def decodeTableWord (nbits w : Nat) : Option Instr :=
  if tableBits nbits w < 2 ^ 32 then
    match decode (BitVec.ofNat 32 (tableBits nbits w)) with
    | .ok i => some i
    | .error _ => none
  else none

end Sys2Proof
end

