-- ==== Sys2Proof/Machine/State.lean ====
section
/-! DEFINITION. The state of the block (10_state.md), its reset value and the reasons a step stops. -/

namespace Sys2Proof.Machine

/-- The causes STATUS.FCODE can record (60_exceptions.md R231). The codes 0x5 to 0xF are "reserved; never written", so
the field holds one of these five. -/
inductive FaultCode where
  | none | illcmd | range | badlen | nocfg
  deriving DecidableEq, Repr

/-- The classes of an inbound frame (44_responder.md R180). -/
inductive FrameClass where
  | unknown | request | selectAll | selectTag
  deriving DecidableEq, Repr

/-- STATUS by field (10_state.md R25). Its reserved bits hold nothing and read 0 (R43); `Status.word` in Machine/Flags.lean
is the 32-bit view. -/
structure Status where
  fault    : Bool
  fcode    : FaultCode
  cfgValid : Bool
  reply    : Bool
  cls      : FrameClass
  vok      : Bool
  mism     : Bool
  deriving DecidableEq, Repr

/-- The register file of 10_state.md R22, each register at its implemented width. CMD and CTRL hold no value (R24, R30).
`res` is RES = {RES_HI, RES_LO}, held once (R35). -/
structure RegFile where
  status : Status
  src    : Half
  dst    : Half
  len    : Half
  padr   : Half
  shamt  : Half
  opaLo  : Word
  opaHi  : Word
  res    : DWord
  crc    : Half
  uid    : Word
  atqa   : Half
  sak    : Byte
  iuid   : Word
  iatqa  : Half
  isak   : Byte
  bcc    : Byte
  sakcrc : Half
  rlen   : Half
  cmdcnt : Word
  deriving DecidableEq, Repr

/-- The bytes of BUF written since the last hardware reset, addresses strictly rising (log 4). -/
abbrev Memory := List Host.Cell

/-- The whole machine: the block (`regs`, `buf`), its parameter (`cfg`), and the model's own fields `draws`, `pending`
and `returned` (logs 1 to 4). -/
structure State where
  /-- the parameter BUF_BYTES (R6) -/
  cfg      : Config
  /-- the register file (R22) -/
  regs     : RegFile
  /-- BUF (R60): the written bytes -/
  buf      : Memory
  /-- how many hardware resets there were: which draw of the free value the unwritten bytes hold -/
  draws    : Nat
  /-- the host accesses yet to be made, oldest first (R23) -/
  pending  : List Access
  /-- what host reads returned, oldest first -/
  returned : List Returned
  deriving DecidableEq, Repr

/-- STATUS after reset (70_reset_and_hazards.md R260). -/
def Status.reset : Status :=
  { fault := false, fcode := .none, cfgValid := false, reply := false, cls := .unknown, vok := false, mism := false }

/-- The "reset" column of R22 (R260): everything 0 but CRC. -/
def RegFile.reset : RegFile :=
  { status := Status.reset
    src := 0x0000#16, dst := 0x0000#16, len := 0x0000#16, padr := 0x0000#16, shamt := 0x0000#16
    opaLo := 0x00000000#32, opaHi := 0x00000000#32
    res := 0#64
    crc := 0x6363#16
    uid := 0x00000000#32, atqa := 0x0000#16, sak := 0x00#8
    iuid := 0x00000000#32, iatqa := 0x0000#16, isak := 0x00#8, bcc := 0x00#8, sakcrc := 0x0000#16
    rlen := 0x0000#16
    cmdcnt := 0x00000000#32 }

/-- A block with parameter `c` right after its first hardware reset: R260, R262, and a host that has done nothing. -/
def State.resetWith (c : Config) : State :=
  { cfg := c, regs := RegFile.reset, buf := [], draws := 0, pending := [], returned := [] }

/-- The state after reset, at the parameter value the spec's vectors use (log 3). -/
def State.reset : State := State.resetWith Config.ofVectors

/-- Why the machine would stop with a fault. It never does: a fault of the block is recorded in STATUS and the machine
goes on (60_exceptions.md R230, R232; "It is not a hang: the host can still reset", R101), so there is no constructor
(log 11, safe). -/
inductive Fault where
  deriving DecidableEq, Repr

/-- Why the model gives a step no meaning. All but the first are the host accesses whose behaviour 20_memory.md R64 leaves
unspecified: "A model refuses such an access: it gives it no step" (log 7). -/
inductive Refusal where
  /-- Raised by no arm of `exec` today: an instruction without a meaning, by its mnemonic. Safe. -/
  | notModelled (mnemonic : String)
  /-- Raised by `hostAccess` for a REG access at an offset that is no multiple of 4. Safe. -/
  | unalignedRegister
  /-- Raised by `hostAccess` for a REG access at or above offset 0x80. Safe. -/
  | outsideRegisterSpace
  /-- Raised by `hostAccess` for a BUF access at or above BUF_BYTES. Safe. -/
  | outsideBuffer
  /-- Raised by `hostAccess` for an access of another width than R64's. Safe. -/
  | wrongWidth
  deriving DecidableEq, Repr

/-- The three outcomes of a step of this machine. -/
abbrev Outcome := Host.Outcome State Fault Refusal

end Sys2Proof.Machine
end

