-- ==== Sys2Proof/Machine/Ops.lean ====
section
/-! DEFINITION. The named operations over memory and registers: BUF byte by byte, the memory and BitBuffer primitives
(00_scope.md R11, R12), the range check, taking a fault and leaving the fault state, and the frame every command runs in. -/

namespace Sys2Proof.Machine

/-! ### BUF -/

/-- The byte listed at `a`, if one is. -/
def Memory.byteAt? : Memory → Nat → Option Byte
  | [], _ => none
  | (k, b) :: rest, a => if k = a then some b else Memory.byteAt? rest a

/-- Write one byte, keeping the addresses rising. -/
def Memory.store : Memory → Nat → Byte → Memory
  | [], a, b => [(a, b)]
  | (k, c) :: rest, a, b =>
    if a < k then (a, b) :: (k, c) :: rest
    else if k = a then (a, b) :: rest
    else (k, c) :: Memory.store rest a b

/-- Write a sequence of bytes in increasing address order (20_memory.md R67). -/
def Memory.storeBytes : Memory → Nat → List Byte → Memory
  | m, _, [] => m
  | m, a, b :: bs => Memory.storeBytes (Memory.store m a b) (a + 1) bs

/-- The canonical form of BUF in a block of `size` bytes: addresses strictly rising and inside BUF. An unlisted address
is one not written since the hardware reset; no entry can stand for that, so equal memories are equal data. -/
def Memory.wfFrom (size : Nat) : Nat → Memory → Bool
  | _, [] => true
  | lo, (k, _) :: rest => decide (lo ≤ k) && decide (k < size) && Memory.wfFrom size (k + 1) rest

/-- See `Memory.wfFrom`. -/
def Memory.wf (size : Nat) (m : Memory) : Bool := Memory.wfFrom size 0 m

/-- What an unlisted address reads as: the byte drawn at the last hardware reset (R262). -/
def State.unwritten (s : State) (a : Nat) : Byte := Config.powerOnByte s.draws a

/-- One byte of BUF (20_memory.md R60). -/
def State.byte (s : State) (a : Nat) : Byte := (Memory.byteAt? s.buf a).getD (s.unwritten a)

/-- `MemRead(addr, n)` (00_scope.md R11). The state it reads is the one the command started in, the snapshot of
20_memory.md R66. -/
def State.memRead (s : State) (addr n : Nat) : List Byte := (List.range n).map fun k => s.byte (addr + k)

/-- `MemWrite(addr, n, v)` (00_scope.md R11), n being the length of `v`. -/
def State.memWrite (s : State) (addr : Nat) (v : List Byte) : State :=
  { s with buf := Memory.storeBytes s.buf addr v }

/-- `valid_range(a, k)` (40_command_cycle.md R104), on unbounded integers. -/
def validRange (c : Config) (a k : Nat) : Bool := decide (k = 0) || decide (a + k ≤ c.bufBytes)

/-! ### BitBuffers -/

/-- `nbytes(n) = ceil(n/8)` (00_scope.md R12). -/
def nbytes (n : Nat) : Nat := (n + 7) / 8

/-- `GetBit(a, i)` (00_scope.md R12): bit i mod 8 of the byte at a + floor(i/8). -/
def State.getBit (s : State) (a i : Nat) : Bool := (s.byte (a + i / 8)).getLsbD (i % 8)

/-- The byte whose bit j is `g j`. -/
def byteOfBits (g : Nat → Bool) : Byte :=
  (((((((((0#0).concat (g 7)).concat (g 6)).concat (g 5)).concat (g 4)).concat (g 3)).concat (g 2)).concat (g 1)).concat (g 0))

/-- The bytes `PutBits(a, m, f)` writes (00_scope.md R12): pad bits are 0 (45_bitbuffer.md R201). -/
def packBits (m : Nat) (f : Nat → Bool) : List Byte :=
  (List.range (nbytes m)).map fun k => byteOfBits fun j => decide (8 * k + j < m) && f (8 * k + j)

/-- `PutBits(a, m, f)` (00_scope.md R12). -/
def State.putBits (s : State) (a m : Nat) (f : Nat → Bool) : State := s.memWrite a (packBits m f)

/-! ### Result registers -/

/-- `reg[RES] <- v`, all 64 bits (10_state.md R35). -/
def State.setRes (s : State) (v : DWord) : State := { s with regs := { s.regs with res := v } }

/-- `reg[CRC] <- c` (10_state.md R36). -/
def State.setCrc (s : State) (c : Half) : State := { s with regs := { s.regs with crc := c } }

/-- `reg[RLEN] <- n` (10_state.md R41). -/
def State.setRlen (s : State) (n : Half) : State := { s with regs := { s.regs with rlen := n } }

/-! ### Faults and resets -/

/-- `raise Fault(code)`: the block's one way of taking an exception. Exactly two writes, STATUS.FAULT and STATUS.FCODE; no
mode, no saved register, no control transfer (60_exceptions.md R232, R237). -/
def State.raise (s : State) (code : FaultCode) : State :=
  { s with regs := { s.regs with status := { s.regs.status with fault := true, fcode := code } } }

/-- Soft reset (70_reset_and_hazards.md R261): every register to its reset value, BUF kept. With hardware reset it is the
only return from the fault state (60_exceptions.md R238). -/
def State.softReset (s : State) : State := { s with regs := RegFile.reset }

/-- Hardware reset (R260): every register to its reset value, and every BUF byte drawn anew (R262). -/
def State.hardReset (s : State) : State := { s with regs := RegFile.reset, buf := [], draws := s.draws + 1 }

/-! ### The frame of a command -/

/-- The last effect of a command that completes: CMDCNT + 1 modulo 2^32 (40_command_cycle.md R105). -/
def State.complete (s : State) : State := { s with regs := { s.regs with cmdcnt := s.regs.cmdcnt + 1#32 } }

/-- A check of a command rule and the fault it raises when it is false. -/
abbrev Check := Bool × FaultCode

/-- The fault of the first failing check (60_exceptions.md R234). -/
def firstFailure : List Check → Option FaultCode
  | [] => none
  | (ok, code) :: rest => if ok then firstFailure rest else some code

/-- "Every check of the rule, in the rule's order …, then every write of the rule" and CMDCNT (40_command_cycle.md R100,
R103): `effect` is the state after the rule's writes, all of them computed from the state before the command. -/
def runCommand (checks : List Check) (effect s : State) : Outcome :=
  match firstFailure checks with
  | some code => .next (s.raise code)
  | none => .next effect.complete

end Sys2Proof.Machine
end

