-- ==== Sys2Proof/Machine/Operands.lean ====
section
/-! DEFINITION. Every operand form of 30_encoding.md R83: unsigned, zero-extended, used as given. -/

namespace Sys2Proof.Machine

/-- SRC as a BUF address (10_state.md R31). -/
abbrev State.srcAddr (s : State) : Nat := s.regs.src.toNat

/-- DST as a BUF address (R31). -/
abbrev State.dstAddr (s : State) : Nat := s.regs.dst.toNat

/-- PADR as a BUF address (R31). -/
abbrev State.padrAddr (s : State) : Nat := s.regs.padr.toNat

/-- LEN as a byte or bit count (R32). -/
abbrev State.count (s : State) : Nat := s.regs.len.toNat

/-- SHAMT as a shift amount in bits (R33). -/
abbrev State.shift (s : State) : Nat := s.regs.shamt.toNat

/-- OPA = {OPA_HI, OPA_LO} (R34). -/
def State.opa (s : State) : DWord := s.regs.opaHi ++ s.regs.opaLo

/-- OPA[7:0], the operand of PAR and MIR8 (R34). -/
def State.opaByte (s : State) : Byte := s.opa.extractLsb' 0 8

/-- OPA[31:0], the operand of MIR32 (R34). -/
def State.opaWord (s : State) : Word := s.opa.extractLsb' 0 32

/-- The field [8k+7:8k] of a value: byte lane k (00_scope.md R9). -/
def lane {w : Nat} (x : BitVec w) (k : Nat) : Byte := x.extractLsb' (8 * k) 8

/-- The bit a parity slot holds: bit 0, bits [7:1] ignored (41_parity.md R122). -/
def slotBit (slot : Byte) : BitVec 1 := slot.extractLsb' 0 1

/-- The slot written for a parity bit: 0x00 or 0x01 (R122); also the flag byte of PARCHK (R126). -/
def slotOf (p : BitVec 1) : Byte := p.setWidth 8

/-- The 4-byte operand at `a`, assembled little-endian (42_mirror_swap.md R148; 20_memory.md R65 c). -/
def State.littleEndian32 (s : State) (a : Nat) : Word :=
  s.byte (a + 3) ++ s.byte (a + 2) ++ s.byte (a + 1) ++ s.byte a

/-- The 8-byte operand at `a`, assembled little-endian (42_mirror_swap.md R149; 20_memory.md R65 c). -/
def State.littleEndian64 (s : State) (a : Nat) : DWord := s.littleEndian32 (a + 4) ++ s.littleEndian32 a

end Sys2Proof.Machine
end

