-- ==== Sys2Proof/Machine/BitBuffer.lean ====
section
/-! DEFINITION. The BitBuffer byte-pack and bit-shift units (45_bitbuffer.md). -/

namespace Sys2Proof.Machine

/-- The valid mask of the last byte of n bits (R203). -/
def lastByteMask (n : Nat) : Byte :=
  if n = 0 then 0x00#8 else if n % 8 = 0 then 0xFF#8 else (1#8 <<< (n % 8)) - 1#8

/-- The geometry word of BPACK: mask [31:24], zero [23:19], n mod 8 [18:16], nbytes(n) [15:0] (R203). -/
def packGeometry (n : Nat) : Word :=
  lastByteMask n ++ 0b00000#5 ++ BitVec.ofNat 3 (n % 8) ++ BitVec.ofNat 16 (nbytes n)

/-- BPACK (R203). -/
def execBpack (s : State) : Outcome := runCommand [] (s.setRes ((packGeometry s.count).setWidth 64)) s

/-- The output bit count of BSHR, saturating at zero (R204, 40_command_cycle.md R109 e). -/
def bshrCount (s : State) : Nat := if s.shift ≤ s.count then s.count - s.shift else 0

/-- BSHR (R205). -/
def execBshr (s : State) : Outcome :=
  runCommand
    [(validRange s.cfg s.srcAddr (nbytes s.count), .range),
     (validRange s.cfg s.dstAddr (nbytes (bshrCount s)), .range)]
    ((s.putBits s.dstAddr (bshrCount s) fun i => s.getBit s.srcAddr (i + s.shift)).setRes
      (BitVec.ofNat 64 (bshrCount s))) s

/-- The output bit count of BSHL (R204). -/
def bshlCount (s : State) : Nat := s.count + s.shift

/-- BSHL (R207). -/
def execBshl (s : State) : Outcome :=
  runCommand
    [(decide (bshlCount s ≤ Config.maxBitCount), .badlen),
     (validRange s.cfg s.srcAddr (nbytes s.count), .range),
     (validRange s.cfg s.dstAddr (nbytes (bshlCount s)), .range)]
    ((s.putBits s.dstAddr (bshlCount s) fun i =>
        if i < s.shift then false else s.getBit s.srcAddr (i - s.shift)).setRes
      (BitVec.ofNat 64 (bshlCount s))) s

/-- The stream bit count of WRAP: n + floor(n/8) (R208). -/
def wrapCount (s : State) : Nat := s.count + s.count / 8

/-- Stream bit i of WRAP (R208, R209): data bits 8j + t at 9j + t, the slot bit p_j[0] at 9j + 8, the residual bits last. -/
def wrapBit (s : State) (i : Nat) : Bool :=
  if i / 9 < s.count / 8 then
    if i % 9 < 8 then s.getBit s.srcAddr (8 * (i / 9) + i % 9)
    else (s.byte (s.padrAddr + i / 9)).getLsbD 0
  else s.getBit s.srcAddr (8 * (s.count / 8) + i % 9)

/-- WRAP (R209). -/
def execWrap (s : State) : Outcome :=
  runCommand
    [(decide (wrapCount s ≤ Config.maxBitCount), .badlen),
     (validRange s.cfg s.srcAddr (nbytes s.count), .range),
     (validRange s.cfg s.padrAddr (s.count / 8), .range),
     (validRange s.cfg s.dstAddr (nbytes (wrapCount s)), .range)]
    ((s.putBits s.dstAddr (wrapCount s) (wrapBit s)).setRes (BitVec.ofNat 64 (wrapCount s))) s

/-- The data bit count of UNWRAP: 8q + r (R213). -/
def unwrapCount (s : State) : Nat := 8 * (s.count / 9) + s.count % 9

/-- The slots UNWRAP writes: stream bits 9j + 8 (R213). -/
def unwrapSlots (s : State) : List Byte :=
  (List.range (s.count / 9)).map fun j => slotOf (BitVec.ofBool (s.getBit s.srcAddr (9 * j + 8)))

/-- UNWRAP (R213): the data range is written first, the slots second (20_memory.md R67). -/
def execUnwrap (s : State) : Outcome :=
  runCommand
    [(decide (s.count % 9 ≠ 8), .badlen),
     (validRange s.cfg s.srcAddr (nbytes s.count), .range),
     (validRange s.cfg s.dstAddr (nbytes (unwrapCount s)), .range),
     (validRange s.cfg s.padrAddr (s.count / 9), .range)]
    (((s.putBits s.dstAddr (unwrapCount s) fun i => s.getBit s.srcAddr (9 * (i / 8) + i % 8)).memWrite
        s.padrAddr (unwrapSlots s)).setRes
      (BitVec.ofNat 64 (unwrapCount s))) s

end Sys2Proof.Machine
end

