-- ==== Sys2Proof/Machine/Control.lean ====
section
/-! DEFINITION. The command of no family (40_command_cycle.md). -/

namespace Sys2Proof.Machine

/-- NOP (R106): no effect but the cycle's CMDCNT. -/
def execNop (s : State) : Outcome := runCommand [] s s

end Sys2Proof.Machine
end

