-- ==== Sys2Proof/Machine/Flags.lean ====
section
/-! DEFINITION. The STATUS register (10_state.md R25): its codes, its 32-bit view, and the writes of its result flags. The
two fault fields are written by `State.raise` only (R26). -/

namespace Sys2Proof.Machine

/-- The FCODE number of a cause (60_exceptions.md R231). -/
def FaultCode.code : FaultCode → BitVec 4
  | .none => 0x0#4
  | .illcmd => 0x1#4
  | .range => 0x2#4
  | .badlen => 0x3#4
  | .nocfg => 0x4#4

/-- The 2-bit code of a class (44_responder.md R180; 10_state.md R28). -/
def FrameClass.code : FrameClass → BitVec 2
  | .unknown => 0b00#2
  | .request => 0b01#2
  | .selectAll => 0b10#2
  | .selectTag => 0b11#2

/-- STATUS as the host reads it (R25): bits [31:14] 0, MISM 13, VOK 12, CLASS [11:10], REPLY 9, CFG_VALID 8, FCODE [7:4],
bits [3:1] 0, FAULT 0. -/
def Status.word (st : Status) : Word :=
  0#18 ++ BitVec.ofBool st.mism ++ BitVec.ofBool st.vok ++ st.cls.code ++ BitVec.ofBool st.reply
    ++ BitVec.ofBool st.cfgValid ++ st.fcode.code ++ 0#3 ++ BitVec.ofBool st.fault

/-- `reg[STATUS].VOK <- b`, by CRCV (R29). -/
def State.setVok (s : State) (b : Bool) : State :=
  { s with regs := { s.regs with status := { s.regs.status with vok := b } } }

/-- `reg[STATUS].MISM <- b`, by PARCHK (R29). -/
def State.setMism (s : State) (b : Bool) : State :=
  { s with regs := { s.regs with status := { s.regs.status with mism := b } } }

/-- `reg[STATUS].CLASS <- code(k)`, by CLASSIFY and HANDLE (R28). -/
def State.setClass (s : State) (k : FrameClass) : State :=
  { s with regs := { s.regs with status := { s.regs.status with cls := k } } }

/-- `reg[STATUS].REPLY <- b`, by HANDLE (R28). -/
def State.setReply (s : State) (b : Bool) : State :=
  { s with regs := { s.regs with status := { s.regs.status with reply := b } } }

/-- `reg[STATUS].CFG_VALID <- 1`, by CFG (R27). -/
def State.setCfgValid (s : State) : State :=
  { s with regs := { s.regs with status := { s.regs.status with cfgValid := true } } }

end Sys2Proof.Machine
end

