-- ==== Sys2Proof/Machine/Crc.lean ====
section
/-! DEFINITION. The CRC-A unit (43_crc_a.md). -/

namespace Sys2Proof.Machine

/-- One shift of the register: `if c[0] = 1: c <- (c >> 1) ^ 0x8408 else: c <- c >> 1` (R160). -/
def crcShift (c : Half) : Half := if c.getLsbD 0 then (c >>> 1) ^^^ Config.crcPoly else c >>> 1

/-- `n` shifts. -/
def crcShifts : Nat → Half → Half
  | 0, c => c
  | n + 1, c => crcShifts n (crcShift c)

/-- `crc_step(c, b)` (R160): the byte into the low bits, then 8 shifts. -/
def crcStep (c : Half) (b : Byte) : Half := crcShifts 8 (c ^^^ b.setWidth 16)

/-- `crc_a(s)` (R161): seed 0x6363, no final exclusive-or; the seed itself for an empty sequence (R167). -/
def crcA (s : List Byte) : Half := s.foldl crcStep Config.crcSeed

/-- The checksum in transmit order: low byte first (R161). -/
def crcBytes (c : Half) : List Byte := [lane c 0, lane c 1]

/-- CRCA (R163). -/
def execCrca (s : State) : Outcome :=
  runCommand
    [(validRange s.cfg s.srcAddr s.count, .range), (validRange s.cfg s.dstAddr 2, .range)]
    (((s.memWrite s.dstAddr (crcBytes (crcA (s.memRead s.srcAddr s.count)))).setCrc
      (crcA (s.memRead s.srcAddr s.count))).setRes
      ((crcA (s.memRead s.srcAddr s.count)).setWidth 64)) s

/-- The checksum CRCV recomputes: of all but the last two bytes (R166). -/
def crcvValue (s : State) : Half := crcA (s.memRead s.srcAddr (s.count - 2))

/-- `s[n-2] = c[7:0] and s[n-1] = c[15:8]` (R166). -/
def crcvMatches (s : State) : Bool :=
  decide (s.byte (s.srcAddr + (s.count - 2)) = lane (crcvValue s) 0)
    && decide (s.byte (s.srcAddr + (s.count - 1)) = lane (crcvValue s) 1)

/-- CRCV (R166). BADLEN is checked before RANGE (60_exceptions.md R234). -/
def execCrcv (s : State) : Outcome :=
  runCommand
    [(decide (2 ≤ s.count), .badlen), (validRange s.cfg s.srcAddr s.count, .range)]
    (((s.setCrc (crcvValue s)).setRes ((crcvValue s).setWidth 64)).setVok (crcvMatches s)) s

end Sys2Proof.Machine
end

