-- ==== Sys2Proof/Machine/Mirror.lean ====
section
/-! DEFINITION. The mirror and endian-swap unit (42_mirror_swap.md). -/

namespace Sys2Proof.Machine

/-- `mir32(x)`: each byte lane mirrored in place (R144). -/
def mir32 (x : Word) : Word := mir (lane x 3) ++ mir (lane x 2) ++ mir (lane x 1) ++ mir (lane x 0)

/-- `mir64(x)`: each byte lane mirrored in place (R146). -/
def mir64 (x : DWord) : DWord :=
  mir (lane x 7) ++ mir (lane x 6) ++ mir (lane x 5) ++ mir (lane x 4)
    ++ mir (lane x 3) ++ mir (lane x 2) ++ mir (lane x 1) ++ mir (lane x 0)

/-- `swap32(x)`: lane k of the result is lane 3−k of x (R150). -/
def swap32 (x : Word) : Word := lane x 0 ++ lane x 1 ++ lane x 2 ++ lane x 3

/-- `swap64(x)`: lane k of the result is lane 7−k of x (R150). -/
def swap64 (x : DWord) : DWord :=
  lane x 0 ++ lane x 1 ++ lane x 2 ++ lane x 3 ++ lane x 4 ++ lane x 5 ++ lane x 6 ++ lane x 7

/-- MIR8 (R141). -/
def execMir8 (s : State) : Outcome := runCommand [] (s.setRes ((mir s.opaByte).setWidth 64)) s

/-- MIRBUF (R143). -/
def execMirbuf (s : State) : Outcome :=
  runCommand [(validRange s.cfg s.srcAddr s.count, .range)]
    (s.memWrite s.srcAddr ((s.memRead s.srcAddr s.count).map mir)) s

/-- MIR32 (R145). -/
def execMir32 (s : State) : Outcome := runCommand [] (s.setRes ((mir32 s.opaWord).setWidth 64)) s

/-- MIR64 (R147). -/
def execMir64 (s : State) : Outcome := runCommand [] (s.setRes (mir64 s.opa)) s

/-- SWP32 (R148). -/
def execSwp32 (s : State) : Outcome :=
  runCommand [(validRange s.cfg s.srcAddr 4, .range)]
    (s.setRes ((swap32 (s.littleEndian32 s.srcAddr)).setWidth 64)) s

/-- SWP64 (R149). -/
def execSwp64 (s : State) : Outcome :=
  runCommand [(validRange s.cfg s.srcAddr 8, .range)]
    (s.setRes (swap64 (s.littleEndian64 s.srcAddr))) s

end Sys2Proof.Machine
end

