-- ==== Sys2Proof/Machine/Parity.lean ====
section
/-! DEFINITION. The parity unit (41_parity.md). -/

namespace Sys2Proof.Machine

/-- A data byte and a parity slot mismatch when `slot[0] != par(b)` (R125). -/
def parityMismatch (b slot : Byte) : Bool := decide (slotBit slot ≠ par b)

/-- PAR (R123). -/
def execPar (s : State) : Outcome :=
  runCommand [] (s.setRes ((par s.opaByte).setWidth 64)) s

/-- The slots PARBUF writes (R124). -/
def parbufSlots (s : State) : List Byte := (s.memRead s.srcAddr s.count).map fun b => slotOf (par b)

/-- PARBUF (R124). -/
def execParbuf (s : State) : Outcome :=
  runCommand
    [(validRange s.cfg s.srcAddr s.count, .range), (validRange s.cfg s.padrAddr s.count, .range)]
    (s.memWrite s.padrAddr (parbufSlots s)) s

/-- `m[k]` of R126 for k = 0 .. n-1. -/
def parchkFlags (s : State) : List Bool :=
  (List.range s.count).map fun k => parityMismatch (s.byte (s.srcAddr + k)) (s.byte (s.padrAddr + k))

/-- The number of k with `m[k] = 1` (R126). -/
def parchkCount (s : State) : Nat := (parchkFlags s).count true

/-- PARCHK (R126). -/
def execParchk (s : State) : Outcome :=
  runCommand
    [(validRange s.cfg s.srcAddr s.count, .range), (validRange s.cfg s.padrAddr s.count, .range),
     (validRange s.cfg s.dstAddr s.count, .range)]
    (((s.memWrite s.dstAddr ((parchkFlags s).map fun m => slotOf (BitVec.ofBool m))).setRes
      (BitVec.ofNat 64 (parchkCount s))).setMism (decide (parchkCount s ≠ 0))) s

end Sys2Proof.Machine
end

