-- ==== Sys2Proof/Machine/Responder.lean ====
section
/-! DEFINITION. The frame-length classifier and anti-collision responder (44_responder.md). -/

namespace Sys2Proof.Machine

/-- `classify(n)` (R180). -/
def classify (n : Nat) : FrameClass :=
  if n = 7 then .request
  else if n = 16 then .selectAll
  else if n = 72 then .selectTag
  else .unknown

/-- BCC, the exclusive-or of the four UID bytes (R184). -/
def bccOf (uid : Word) : Byte := lane uid 0 ^^^ lane uid 1 ^^^ lane uid 2 ^^^ lane uid 3

/-- SAKCRC, `crc_a([s])` (R184). -/
def sakCrcOf (sak : Byte) : Half := crcA [sak]

/-- `reply(k)` from the latched identity, in transmission order (R181). -/
def replyOf (r : RegFile) : FrameClass → List Byte
  | .request => [lane r.iatqa 0, lane r.iatqa 1]
  | .selectAll => [lane r.iuid 0, lane r.iuid 1, lane r.iuid 2, lane r.iuid 3, r.bcc]
  | .selectTag => [r.isak, lane r.sakcrc 0, lane r.sakcrc 1]
  | .unknown => []

/-- The five identity writes of CFG (R185). -/
def State.latchIdentity (s : State) : State :=
  { s with regs := { s.regs with
      iuid := s.regs.uid
      iatqa := s.regs.atqa
      isak := s.regs.sak
      bcc := bccOf s.regs.uid
      sakcrc := sakCrcOf s.regs.sak } }

/-- CFG (R185). -/
def execCfg (s : State) : Outcome := runCommand [] s.latchIdentity.setCfgValid s

/-- CLASSIFY (R186). -/
def execClassify (s : State) : Outcome :=
  runCommand []
    ((s.setClass (classify s.count)).setRes ((classify s.count).code.setWidth 64)) s

/-- The reply bytes of HANDLE (R188): of the inbound bit count and the latched identity, nothing else (R182). -/
def handleReply (s : State) : List Byte := replyOf s.regs (classify s.count)

/-- HANDLE (R187, R188). -/
def execHandle (s : State) : Outcome :=
  runCommand
    [(s.regs.status.cfgValid, .nocfg), (validRange s.cfg s.dstAddr (handleReply s).length, .range)]
    ((((s.memWrite s.dstAddr (handleReply s)).setRlen (BitVec.ofNat 16 (8 * (handleReply s).length))).setClass
      (classify s.count)).setReply (decide (classify s.count ≠ .unknown))) s

end Sys2Proof.Machine
end

