-- ==== Sys2Proof/Machine/Dispatch.lean ====
section
/-! DEFINITION. One arm per command of 30_encoding.md R82: the rule a started command runs, and its CMDCNT (R100, R105).
The cycle around it (ignored under FAULT, decoding) is `commandWrite` of Machine/HostInterface.lean (log 9). -/

namespace Sys2Proof.Machine

def exec (i : Instr) (s : State) : Host.Outcome State Fault Refusal :=
  match i with
  | .nop => Sys2Proof.Machine.execNop s
  | .par => Sys2Proof.Machine.execPar s
  | .parbuf => Sys2Proof.Machine.execParbuf s
  | .parchk => Sys2Proof.Machine.execParchk s
  | .mir8 => Sys2Proof.Machine.execMir8 s
  | .mirbuf => Sys2Proof.Machine.execMirbuf s
  | .mir32 => Sys2Proof.Machine.execMir32 s
  | .mir64 => Sys2Proof.Machine.execMir64 s
  | .swp32 => Sys2Proof.Machine.execSwp32 s
  | .swp64 => Sys2Proof.Machine.execSwp64 s
  | .crca => Sys2Proof.Machine.execCrca s
  | .crcv => Sys2Proof.Machine.execCrcv s
  | .cfg => Sys2Proof.Machine.execCfg s
  | .classify => Sys2Proof.Machine.execClassify s
  | .handle => Sys2Proof.Machine.execHandle s
  | .bpack => Sys2Proof.Machine.execBpack s
  | .bshr => Sys2Proof.Machine.execBshr s
  | .bshl => Sys2Proof.Machine.execBshl s
  | .wrap => Sys2Proof.Machine.execWrap s
  | .unwrap => Sys2Proof.Machine.execUnwrap s

end Sys2Proof.Machine
end

