-- ==== Sys2Proof/Machine/RegisterMap.lean ====
section
/-! DEFINITION. The register space REG as the host sees it (10_state.md R22, R43, R44): offsets, access kinds, what a read
returns and what a write stores. -/

namespace Sys2Proof.Machine

/-- The offset column of R22. -/
def regOffset : Reg → Nat
  | .cmd => 0x00 | .status => 0x04 | .ctrl => 0x08 | .src => 0x0C
  | .dst => 0x10 | .len => 0x14 | .padr => 0x18 | .shamt => 0x1C
  | .opaLo => 0x20 | .opaHi => 0x24 | .resLo => 0x28 | .resHi => 0x2C
  | .crc => 0x30 | .uid => 0x34 | .atqa => 0x38 | .sak => 0x3C
  | .iuid => 0x40 | .iatqa => 0x44 | .isak => 0x48 | .bcc => 0x4C
  | .sakcrc => 0x50 | .rlen => 0x54 | .cmdcnt => 0x58

/-- The register at an offset; none at the reserved offsets 0x5C to 0x7C (R43). -/
def regAt? (off : Nat) : Option Reg :=
  [Reg.cmd, .status, .ctrl, .src, .dst, .len, .padr, .shamt, .opaLo, .opaHi, .resLo, .resHi, .crc, .uid, .atqa, .sak,
   .iuid, .iatqa, .isak, .bcc, .sakcrc, .rlen, .cmdcnt].find? fun r => decide (regOffset r = off)

/-- The access column of R22. -/
def regAccess : Reg → RegAccess
  | .cmd | .ctrl => .writeOnly
  | .src | .dst | .len | .padr | .shamt | .opaLo | .opaHi | .uid | .atqa | .sak => .readWrite
  | .status | .resLo | .resHi | .crc | .iuid | .iatqa | .isak | .bcc | .sakcrc | .rlen | .cmdcnt => .readOnly

/-- What a host read of a register returns: its value with every reserved bit 0 (R43); 0 for CMD and CTRL (R24, R30). -/
def RegFile.read (f : RegFile) : Reg → Word
  | .cmd => 0#32
  | .status => f.status.word
  | .ctrl => 0#32
  | .src => f.src.setWidth 32
  | .dst => f.dst.setWidth 32
  | .len => f.len.setWidth 32
  | .padr => f.padr.setWidth 32
  | .shamt => f.shamt.setWidth 32
  | .opaLo => f.opaLo
  | .opaHi => f.opaHi
  | .resLo => f.res.extractLsb' 0 32
  | .resHi => f.res.extractLsb' 32 32
  | .crc => f.crc.setWidth 32
  | .uid => f.uid
  | .atqa => f.atqa.setWidth 32
  | .sak => f.sak.setWidth 32
  | .iuid => f.iuid
  | .iatqa => f.iatqa.setWidth 32
  | .isak => f.isak.setWidth 32
  | .bcc => f.bcc.setWidth 32
  | .sakcrc => f.sakcrc.setWidth 32
  | .rlen => f.rlen.setWidth 32
  | .cmdcnt => f.cmdcnt

/-- What a host read of offset `off` returns; 0 at a reserved offset (R43). -/
def RegFile.readOffset (f : RegFile) (off : Nat) : Word :=
  match regAt? off with
  | some r => f.read r
  | none => 0#32

/-- What a host write stores in the register file (R44): the implemented bits of an RW register; nothing in a register
marked R. What a write of CMD or CTRL does is in Machine/HostInterface.lean; it stores nothing (R24, R30). -/
def RegFile.store (f : RegFile) (v : Word) : Reg → RegFile
  | .src => { f with src := v.extractLsb' 0 16 }
  | .dst => { f with dst := v.extractLsb' 0 16 }
  | .len => { f with len := v.extractLsb' 0 16 }
  | .padr => { f with padr := v.extractLsb' 0 16 }
  | .shamt => { f with shamt := v.extractLsb' 0 16 }
  | .opaLo => { f with opaLo := v }
  | .opaHi => { f with opaHi := v }
  | .uid => { f with uid := v }
  | .atqa => { f with atqa := v.extractLsb' 0 16 }
  | .sak => { f with sak := v.extractLsb' 0 8 }
  | .cmd | .status | .ctrl | .resLo | .resHi | .crc | .iuid | .iatqa | .isak | .bcc | .sakcrc | .rlen | .cmdcnt => f

end Sys2Proof.Machine
end

