-- ==== Sys2Proof/Machine/HostInterface.lean ====
section
/-! DEFINITION. What each host access does (20_memory.md R64, R68, R72; 60_exceptions.md R250), the command cycle
(40_command_cycle.md R100) and the resets (70_reset_and_hazards.md R260, R261). -/

namespace Sys2Proof.Machine

/-- A host write of `w` to CMD (R100): ignored while FAULT = 1 (R101), ILLCMD on an illegal word (30_encoding.md R81),
else the command. -/
def commandWrite (w : Word) (s : State) : Outcome :=
  if s.regs.status.fault then .next s
  else
    match decode w with
    | .error _ => .next (s.raise .illcmd)
    | .ok i => exec i s

/-- A host write of `v` to CTRL (10_state.md R30): bit 0 = 1 resets, whether or not FAULT is 1; else nothing. -/
def ctrlWrite (v : Word) (s : State) : State := if v.getLsbD 0 then s.softReset else s

/-- A host write of `v` at REG offset `off` (R24, R30, R43, R44). -/
def registerWrite (off : Nat) (v : Word) (s : State) : Outcome :=
  match regAt? off with
  | none => .next s
  | some .cmd => commandWrite v s
  | some .ctrl => .next (ctrlWrite v s)
  | some r => .next { s with regs := s.regs.store v r }

/-- The host receives the value it read; the block is unchanged (20_memory.md R68). -/
def State.answer (s : State) (v : Returned) : State := { s with returned := s.returned ++ [v] }

/-- Why a REG access is refused, if it is (R64). -/
def regRefusal (off : Nat) : Option Refusal :=
  if off % 4 ≠ 0 then some .unalignedRegister
  else if Config.regSpaceBytes ≤ off then some .outsideRegisterSpace
  else none

/-- Why an access is refused, if it is (R64, 93_implementation_defined.md U9). -/
def accessRefusal (c : Config) : Access → Option Refusal
  | .regRead off => regRefusal off
  | .regWrite off _ => regRefusal off
  | .bufRead addr => if c.bufBytes ≤ addr then some .outsideBuffer else none
  | .bufWrite addr _ => if c.bufBytes ≤ addr then some .outsideBuffer else none
  | .otherWidth _ _ => some .wrongWidth
  | .hardReset => none

/-- What an access with a meaning does. -/
def performAccess (a : Access) (s : State) : Outcome :=
  match a with
  | .regRead off => .next (s.answer (.reg (s.regs.readOffset off)))
  | .regWrite off v => registerWrite off v s
  | .bufRead addr => .next (s.answer (.buf (s.byte addr)))
  | .bufWrite addr b => .next (s.memWrite addr [b])
  | .otherWidth _ _ => .refused .wrongWidth
  | .hardReset => .next s.hardReset

/-- One host access, wholly (20_memory.md R69, R72), or refused by name. -/
def hostAccess (a : Access) (s : State) : Outcome :=
  match accessRefusal s.cfg a with
  | some r => .refused r
  | none => performAccess a s

/-- The next host access; with none pending the block holds its state (60_exceptions.md R248, 70_reset_and_hazards.md
R263). -/
def nextAccess (s : State) : Outcome :=
  match s.pending with
  | [] => .next s
  | a :: rest => hostAccess a { s with pending := rest }

/-- The host's next access is a write of the table word `w`, cut to `nbits` bits, to CMD (30_encoding.md R86, R88). -/
def withCommandWord (s : State) (nbits w : Nat) : State :=
  { s with pending := .regWrite (regOffset .cmd) (BitVec.ofNat 32 (tableBits nbits w)) :: s.pending }

end Sys2Proof.Machine
end

