-- ==== Sys2Proof/Machine/Step.lean ====
section
/-! DEFINITION. One step: the next host access (log 1). -/

namespace Sys2Proof.Machine

/-- One step of the machine: the host's next access, and with it the command it may start. -/
def step (s : State) : Host.Outcome State Fault Refusal := nextAccess s

/-- `s` with the command word placed where the step takes its next command from: the front of the host's accesses. -/
def State.withFetchWord (s : State) (nbits w : Nat) : State := withCommandWord s nbits w

end Sys2Proof.Machine
end

