-- ==== Sys2Proof/Machine/HostProgram.lean ====
section
/-! DEFINITION. The host program syntax (30_encoding.md R87 to R89): host operations as the accesses they stand for. -/

namespace Sys2Proof.Machine

/-- One line of a host program: the operations of R87 and the pseudo-instructions of R88. -/
inductive HostOp where
  /-- `wr NAME, v` -/
  | wr (r : Reg) (v : Word)
  /-- `rd NAME` -/
  | rd (r : Reg)
  /-- `wb a, b0 b1 … bk` -/
  | wb (a : Nat) (bs : List Byte)
  /-- `rb a, n` -/
  | rb (a n : Nat)
  /-- `cmd MNEMONIC` -/
  | cmd (i : Instr)
  /-- `srst` -/
  | srst
  /-- `ld NAME=v, NAME=v, …` -/
  | ld (rs : List (Reg × Word))
  deriving DecidableEq, Repr

/-- One byte write per byte, in address order (R87). -/
def byteWrites : Nat → List Byte → List Access
  | _, [] => []
  | a, b :: bs => .bufWrite a b :: byteWrites (a + 1) bs

/-- The bus transactions of one line (R87, R88). -/
def HostOp.accesses : HostOp → List Access
  | .wr r v => [.regWrite (regOffset r) v]
  | .rd r => [.regRead (regOffset r)]
  | .wb a bs => byteWrites a bs
  | .rb a n => (List.range n).map fun k => .bufRead (a + k)
  | .cmd i => [.regWrite (regOffset .cmd) (encode i)]
  | .srst => [.regWrite (regOffset .ctrl) 0x00000001#32]
  | .ld rs => rs.map fun p => .regWrite (regOffset p.1) p.2

/-- "The encoding of a host program is the list of its bus transactions" (R89). -/
def hostProgram (ops : List HostOp) : List Access := ops.flatMap HostOp.accesses

/-- A state whose host goes on to run a program: how a program is loaded (log 1). -/
def State.withProgram (s : State) (ops : List HostOp) : State := { s with pending := s.pending ++ hostProgram ops }

end Sys2Proof.Machine
end

