-- ==== Sys2Proof/Safety.lean ====
section
/-! DEFINITION. The terms claims are stated in: what a good state is, what a safe run is, what a command leaves alone, and
the spec's tables of checks and ranges as data. Nothing here is used by the machine. -/

namespace Sys2Proof.Machine

/-! ### Good states and safe runs -/

/-- STATUS.FAULT = 1, "the block's trap state" (60_exceptions.md R237). -/
def State.faulted (s : State) : Prop := s.regs.status.fault = true

/-- A run of `k` steps that ends, and ends without a fault: "STATUS.FAULT = 0 at the end" (60_exceptions.md R254). -/
def SafeRun (k : Nat) (s t : State) : Prop := Sys2Proof.core.run k s = .next t ∧ ¬ t.faulted

/-- What every step keeps. -/
structure State.Inv (s : State) : Prop where
  /-- 64 ≤ BUF_BYTES ≤ 65536 (00_scope.md R6) -/
  cfg_wellFormed : s.cfg.wellFormed = true
  /-- BUF in canonical form, nothing listed outside BUF -/
  buf_wf : Memory.wf s.cfg.bufBytes s.buf = true
  /-- FCODE is 0 when FAULT = 0, and names a cause when FAULT = 1 (10_state.md R25, 60_exceptions.md R231) -/
  fault_iff_cause : s.regs.status.fault = true ↔ s.regs.status.fcode ≠ .none
  /-- while CFG_VALID = 0 the latched identity reads as its reset value (10_state.md R38) -/
  unconfigured_zero : s.regs.status.cfgValid = false →
    s.regs.iuid = 0#32 ∧ s.regs.iatqa = 0#16 ∧ s.regs.isak = 0#8 ∧ s.regs.bcc = 0#8 ∧ s.regs.sakcrc = 0#16
  /-- BCC is the exclusive-or of the four bytes of the latched UID (10_state.md R39) -/
  bcc_of_iuid : s.regs.status.cfgValid = true →
    s.regs.bcc = s.regs.iuid.extractLsb' 0 8 ^^^ s.regs.iuid.extractLsb' 8 8
      ^^^ s.regs.iuid.extractLsb' 16 8 ^^^ s.regs.iuid.extractLsb' 24 8
  /-- SAKCRC is the CRC-A of the latched SAK (10_state.md R40) -/
  sakcrc_of_isak : s.regs.status.cfgValid = true → s.regs.sakcrc = crcA [s.regs.isak]
  /-- RLEN is 16, 40, 24 or 0 (10_state.md R41) -/
  rlen_values : s.regs.rlen = 0#16 ∨ s.regs.rlen = 16#16 ∨ s.regs.rlen = 40#16 ∨ s.regs.rlen = 24#16
  /-- REPLY says whether the last HANDLE replied, and so whether RLEN is nonzero (R28, 44_responder.md R188) -/
  reply_iff_rlen : s.regs.status.reply = true ↔ s.regs.rlen ≠ 0#16
  /-- only a configured block has replied (44_responder.md R187) -/
  reply_configured : s.regs.status.reply = true → s.regs.status.cfgValid = true

/-! ### What stays the same -/

/-- The parameter, the draw and the host's side are the same: no command touches them. -/
def SameOutside (s t : State) : Prop :=
  t.cfg = s.cfg ∧ t.draws = s.draws ∧ t.pending = s.pending ∧ t.returned = s.returned

/-- Every byte of BUF reads as before. -/
def SameBytes (s t : State) : Prop := ∀ x, t.byte x = s.byte x

/-- Every byte of BUF outside the `n` bytes at `a` reads as before. -/
def SameBytesExcept (s t : State) (a n : Nat) : Prop := ∀ x, x < a ∨ a + n ≤ x → t.byte x = s.byte x

/-- The registers the host owns: "Commands read these registers and never write them" (10_state.md R21). -/
def SameHostRegs (f g : RegFile) : Prop :=
  g.src = f.src ∧ g.dst = f.dst ∧ g.len = f.len ∧ g.padr = f.padr ∧ g.shamt = f.shamt ∧ g.opaLo = f.opaLo
    ∧ g.opaHi = f.opaHi ∧ g.uid = f.uid ∧ g.atqa = f.atqa ∧ g.sak = f.sak

/-- The latched identity (10_state.md R38 to R40). -/
def SameIdentity (f g : RegFile) : Prop :=
  g.iuid = f.iuid ∧ g.iatqa = f.iatqa ∧ g.isak = f.isak ∧ g.bcc = f.bcc ∧ g.sakcrc = f.sakcrc

/-! ### Faults -/

/-- `valid_range(a, k)` as the rule says it (40_command_cycle.md R104). -/
def InBuf (c : Config) (a k : Nat) : Prop := k = 0 ∨ a + k ≤ c.bufBytes

/-- The outcome of a command that raises `code`: "exactly two writes" (60_exceptions.md R232). -/
def FaultsWith (o : Outcome) (s : State) (code : FaultCode) : Prop :=
  o = .next { s with regs := { s.regs with status := { s.regs.status with fault := true, fcode := code } } }

/-- The NOCFG check of the table of 60_exceptions.md R235. -/
def lacksConfiguration (i : Instr) (s : State) : Prop := i = .handle ∧ s.regs.status.cfgValid = false

/-- The BADLEN checks of R235, with n = LEN and k = SHAMT. -/
def lengthInvalid (i : Instr) (n k : Nat) : Prop :=
  (i = .crcv ∧ n < 2) ∨ (i = .bshl ∧ 65535 < n + k) ∨ (i = .wrap ∧ 65535 < n + n / 8) ∨ (i = .unwrap ∧ n % 9 = 8)

/-- The number of reply bytes for an inbound bit count (44_responder.md R181). -/
def replyBytes (n : Nat) : Nat := if n = 7 then 2 else if n = 16 then 5 else if n = 72 then 3 else 0

/-- The byte ranges (address, length) a command reads, from its rule; n = LEN. -/
def inputRanges (i : Instr) (s : State) : List (Nat × Nat) :=
  let src := s.regs.src.toNat
  let padr := s.regs.padr.toNat
  let n := s.regs.len.toNat
  match i with
  | .parbuf | .mirbuf | .crca | .crcv => [(src, n)]
  | .parchk => [(src, n), (padr, n)]
  | .swp32 => [(src, 4)]
  | .swp64 => [(src, 8)]
  | .bshr | .bshl | .unwrap => [(src, (n + 7) / 8)]
  | .wrap => [(src, (n + 7) / 8), (padr, n / 8)]
  | .nop | .par | .mir8 | .mir32 | .mir64 | .cfg | .classify | .handle | .bpack => []

/-- The byte ranges (address, length) a command writes, from its rule; n = LEN, k = SHAMT. -/
def outputRanges (i : Instr) (s : State) : List (Nat × Nat) :=
  let src := s.regs.src.toNat
  let dst := s.regs.dst.toNat
  let padr := s.regs.padr.toNat
  let n := s.regs.len.toNat
  let k := s.regs.shamt.toNat
  match i with
  | .parbuf => [(padr, n)]
  | .parchk => [(dst, n)]
  | .mirbuf => [(src, n)]
  | .crca => [(dst, 2)]
  | .handle => [(dst, replyBytes n)]
  | .bshr => [(dst, (n - k + 7) / 8)]
  | .bshl => [(dst, (n + k + 7) / 8)]
  | .wrap => [(dst, (n + n / 8 + 7) / 8)]
  | .unwrap => [(dst, (8 * (n / 9) + n % 9 + 7) / 8), (padr, n / 9)]
  | .nop | .par | .mir8 | .mir32 | .mir64 | .swp32 | .swp64 | .crcv | .cfg | .classify | .bpack => []

/-- Every range a command would read or write lies in BUF: its RANGE checks of R235 all pass. -/
def rangesFit (i : Instr) (s : State) : Prop :=
  (∀ r ∈ inputRanges i s, InBuf s.cfg r.1 r.2) ∧ (∀ r ∈ outputRanges i s, InBuf s.cfg r.1 r.2)

/-! ### Values the rules speak of -/

/-- The population count of a byte (41_parity.md R120, R121). -/
def setBits (b : Byte) : Nat := (List.range 8).countP fun j => b.getLsbD j

/-- A parity slot disagrees with a data byte (41_parity.md R125): the slot's bit 0 is not the odd-parity bit. -/
def slotDisagrees (b slot : Byte) : Bool := slot.getLsbD 0 != decide (setBits b % 2 = 0)

/-- Bit i of the BitBuffer at address a (00_scope.md R12, 45_bitbuffer.md R202). -/
def State.bitAt (s : State) (a i : Nat) : Bool := (s.byte (a + i / 8)).getLsbD (i % 8)

/-- The n bytes at address a. -/
def State.bytesAt (s : State) (a n : Nat) : List Byte := (List.range n).map fun k => s.byte (a + k)

/-- An access that resets the block: a hardware reset, or a write of CTRL with bit 0 = 1 (10_state.md R30). -/
def isResetAccess : Access → Bool
  | .hardReset => true
  | .regWrite off v => decide (off = 0x08) && v.getLsbD 0
  | .regRead _ | .bufRead _ | .bufWrite _ _ | .otherWidth _ _ => false

/-- An access that writes BUF address x (20_memory.md R64). -/
def writesBufByte (x : Nat) : Access → Bool
  | .bufWrite addr _ => decide (addr = x)
  | .regRead _ | .regWrite _ _ | .bufRead _ | .otherWidth _ _ | .hardReset => false

end Sys2Proof.Machine
end

