-- ==== Sys2Proof/Certificates/Slice0/Obligations.lean ====
section
/-! DEFINITION. The statements for the provers. Each names the rules of spec/ it formalises; OBLIGATIONS.json lists them.
Every statement holds for every value of BUF_BYTES (`cfg`) and of the power-on draw (`draws`). -/

open Sys2Proof Sys2Proof.Machine

/-! ### Encoding (30_encoding.md) -/

/-- R82, row by row: the word of every command decodes to it. -/
def Obligations.CommandWordsDecodeAsPrinted : Prop :=
  decode 0x00000000#32 = .ok .nop ∧ decode 0x00000001#32 = .ok .par ∧ decode 0x00000002#32 = .ok .parbuf
  ∧ decode 0x00000003#32 = .ok .parchk ∧ decode 0x00000010#32 = .ok .mir8 ∧ decode 0x00000011#32 = .ok .mirbuf
  ∧ decode 0x00000012#32 = .ok .mir32 ∧ decode 0x00000013#32 = .ok .mir64 ∧ decode 0x00000018#32 = .ok .swp32
  ∧ decode 0x00000019#32 = .ok .swp64 ∧ decode 0x00000020#32 = .ok .crca ∧ decode 0x00000021#32 = .ok .crcv
  ∧ decode 0x00000030#32 = .ok .cfg ∧ decode 0x00000031#32 = .ok .classify ∧ decode 0x00000032#32 = .ok .handle
  ∧ decode 0x00000040#32 = .ok .bpack ∧ decode 0x00000041#32 = .ok .bshr ∧ decode 0x00000042#32 = .ok .bshl
  ∧ decode 0x00000043#32 = .ok .wrap ∧ decode 0x00000044#32 = .ok .unwrap

/-- R81: a word selects the command whose opcode equals w[7:0], provided w[31:8] = 0, and exactly that word encodes the
command; decode and encode agree in both directions, for every word and every command. -/
def Obligations.DecodeInvertsEncode : Prop :=
  ∀ (w : Word) (i : Instr), i.wellFormed = true ∧
    (decode w = .ok i ↔ w = encode i) ∧
    (decode w = .ok i ↔ w.extractLsb' 8 24 = 0#24 ∧ w.extractLsb' 0 8 = opcodeOf i)

/-- R85: the illegal command words are exactly those with w[31:8] ≠ 0 or an opcode in the listed gaps, and a CMD write of
one faults ILLCMD without any other effect; the one command with no effect but CMDCNT in any state is NOP. -/
def Obligations.IllegalWordsAreTheReservedOnes : Prop :=
  (∀ w : Word,
    ((∀ i, decode w ≠ .ok i) ↔
      256 ≤ w.toNat ∨ (0x04 ≤ w.toNat ∧ w.toNat ≤ 0x0F) ∨ (0x14 ≤ w.toNat ∧ w.toNat ≤ 0x17)
        ∨ (0x1A ≤ w.toNat ∧ w.toNat ≤ 0x1F) ∨ (0x22 ≤ w.toNat ∧ w.toNat ≤ 0x2F)
        ∨ (0x33 ≤ w.toNat ∧ w.toNat ≤ 0x3F) ∨ (0x45 ≤ w.toNat ∧ w.toNat ≤ 0xFF)) ∧
    ∀ (s : State) (rest : List Access),
      s.pending = .regWrite 0x00 w :: rest → s.regs.status.fault = false → (∀ i, decode w ≠ .ok i) →
        FaultsWith (step s) { s with pending := rest } .illcmd) ∧
    ∀ i : Instr, i = .nop ↔
      ∀ s : State, exec i s = .next { s with regs := { s.regs with cmdcnt := s.regs.cmdcnt + 1#32 } }

/-- R88, over the four lines of R87: `wr` and `rd` are one access at the register's offset in the map of R22, `wb` and `rb` one
byte access per byte in address order, and a program is its lines' accesses in order (R89). `cmd MNEMONIC` is `wr CMD` of the
command's word, `srst` is `wr CTRL` of 1, `ld` one `wr` per pair in the order written. -/
def Obligations.PseudoInstructionsExpand : Prop :=
  (∀ p ∈ [(Reg.cmd, 0x00), (.status, 0x04), (.ctrl, 0x08), (.src, 0x0C), (.dst, 0x10), (.len, 0x14), (.padr, 0x18),
      (.shamt, 0x1C), (.opaLo, 0x20), (.opaHi, 0x24), (.resLo, 0x28), (.resHi, 0x2C), (.crc, 0x30), (.uid, 0x34),
      (.atqa, 0x38), (.sak, 0x3C), (.iuid, 0x40), (.iatqa, 0x44), (.isak, 0x48), (.bcc, 0x4C), (.sakcrc, 0x50),
      (.rlen, 0x54), (.cmdcnt, 0x58)],
    (∀ v, hostProgram [.wr p.1 v] = [.regWrite p.2 v]) ∧ hostProgram [.rd p.1] = [.regRead p.2]) ∧
  (∀ (a : Nat) (bs : List Byte),
    hostProgram [.wb a bs] = (List.range bs.length).map fun k => .bufWrite (a + k) (bs.getD k 0#8)) ∧
  (∀ a n : Nat, hostProgram [.rb a n] = (List.range n).map fun k => .bufRead (a + k)) ∧
  (∀ ops ops' : List HostOp, hostProgram (ops ++ ops') = hostProgram ops ++ hostProgram ops') ∧
  (∀ i : Instr, hostProgram [.cmd i] = hostProgram [.wr .cmd (0#24 ++ opcodeOf i)]) ∧
  hostProgram [.srst] = hostProgram [.wr .ctrl 0x00000001#32] ∧
  ∀ rs : List (Reg × Word), hostProgram [.ld rs] = hostProgram (rs.map fun p => .wr p.1 p.2)

/-! ### The command cycle (40_command_cycle.md) -/

/-- R100: when the host's next access writes CMD, FAULT is 0 and the word decodes, the step is the command's own meaning
on the state whose host has made that access. The queue of accesses is the model's choice (log 1). -/
def Obligations.StepRunsDecodedCommand : Prop :=
  ∀ (s : State) (w : Word) (i : Instr) (rest : List Access),
    s.pending = .regWrite 0x00 w :: rest → s.regs.status.fault = false → decode w = .ok i →
      step s = exec i { s with pending := rest }

/-- R101: while STATUS.FAULT = 1 a CMD write of any word, legal or not, changes nothing, and only a reset lifts this
state. -/
def Obligations.FaultedBlockIgnoresCommands : Prop :=
  (∀ (s : State) (w : Word) (rest : List Access),
    s.pending = .regWrite 0x00 w :: rest → s.regs.status.fault = true → step s = .next { s with pending := rest }) ∧
  (∀ s t : State, s.faulted → step s = .next t → (∀ a, s.pending.head? = some a → isResetAccess a = false) → t.faulted) ∧
  ∀ (s : State) (a : Access) (rest : List Access), s.pending = a :: rest → isResetAccess a = true →
    ∃ t, step s = .next t ∧ ¬ t.faulted ∧ t.regs.status.fcode = .none

/-- R248: with no access to make, the block holds its state (that a step is then taken at all is the model's choice,
log 6). -/
def Obligations.IdleBlockHoldsItsState : Prop := ∀ s : State, s.pending = [] → step s = .next s

/-- R234, R235, with R104 and R232: a started command raises exactly the first failing check in the order NOCFG, BADLEN,
RANGE, and where none fails it completes: CMDCNT counts it, FAULT and FCODE keep. -/
def Obligations.CommandsFaultInTableOrder : Prop :=
  ∀ (i : Instr) (s : State),
    (lacksConfiguration i s → FaultsWith (exec i s) s .nocfg) ∧
    (¬ lacksConfiguration i s → lengthInvalid i s.regs.len.toNat s.regs.shamt.toNat →
      FaultsWith (exec i s) s .badlen) ∧
    (¬ lacksConfiguration i s → ¬ lengthInvalid i s.regs.len.toNat s.regs.shamt.toNat → ¬ rangesFit i s →
      FaultsWith (exec i s) s .range) ∧
    (¬ lacksConfiguration i s → ¬ lengthInvalid i s.regs.len.toNat s.regs.shamt.toNat → rangesFit i s →
      ∃ t, exec i s = .next t ∧ SameOutside s t ∧ t.regs.cmdcnt = s.regs.cmdcnt + 1#32
        ∧ t.regs.status.fault = s.regs.status.fault ∧ t.regs.status.fcode = s.regs.status.fcode)

/-- R231, R28: the numbers FCODE and CLASS show. -/
def Obligations.FaultAndClassCodes : Prop :=
  FaultCode.code .none = 0x0#4 ∧ FaultCode.code .illcmd = 0x1#4 ∧ FaultCode.code .range = 0x2#4
  ∧ FaultCode.code .badlen = 0x3#4 ∧ FaultCode.code .nocfg = 0x4#4
  ∧ FrameClass.code .unknown = 0b00#2 ∧ FrameClass.code .request = 0b01#2 ∧ FrameClass.code .selectAll = 0b10#2
  ∧ FrameClass.code .selectTag = 0b11#2

/-- R106: NOP, the word 0 and no other, has no effect but CMDCNT, in every state; under FAULT it has none at all. -/
def Obligations.NopOnlyCounts : Prop :=
  (∀ w : Word, decode w = .ok .nop ↔ w = 0x00000000#32) ∧
  (∀ s : State, exec .nop s = .next { s with regs := { s.regs with cmdcnt := s.regs.cmdcnt + 1#32 } }) ∧
  ∀ (s : State) (rest : List Access), s.pending = .regWrite 0x00 0x00000000#32 :: rest →
    s.regs.status.fault = true → step s = .next { s with pending := rest }

/-! ### Parity (41_parity.md) -/

/-- R123: RES is the odd-parity bit of OPA[7:0]; only RES and CMDCNT change; no fault, in every state. -/
def Obligations.ParGivesOddParity : Prop :=
  decode 0x00000001#32 = .ok .par ∧
  ∀ s : State, exec .par s = .next { s with regs := { s.regs with
    res := if setBits (s.regs.opaLo.extractLsb' 0 8) % 2 = 0 then 1#64 else 0#64
    cmdcnt := s.regs.cmdcnt + 1#32 } }

/-- R124: every parity slot at PADR, 0x01 for an even number of set bits and 0x00 otherwise, and nothing else; RANGE when
a range does not fit. -/
def Obligations.ParbufWritesParitySlots : Prop :=
  decode 0x00000002#32 = .ok .parbuf ∧
  ∀ s : State,
    (InBuf s.cfg s.regs.src.toNat s.regs.len.toNat → InBuf s.cfg s.regs.padr.toNat s.regs.len.toNat →
      ∃ t, exec .parbuf s = .next t ∧ SameOutside s t
        ∧ t.regs = { s.regs with cmdcnt := s.regs.cmdcnt + 1#32 }
        ∧ (∀ k, k < s.regs.len.toNat → t.byte (s.regs.padr.toNat + k) =
            if setBits (s.byte (s.regs.src.toNat + k)) % 2 = 0 then 0x01#8 else 0x00#8)
        ∧ SameBytesExcept s t s.regs.padr.toNat s.regs.len.toNat) ∧
    (¬ (InBuf s.cfg s.regs.src.toNat s.regs.len.toNat ∧ InBuf s.cfg s.regs.padr.toNat s.regs.len.toNat) →
      FaultsWith (exec .parbuf s) s .range)

/-- R126: a flag byte per data byte at DST, their number in RES, MISM set when there is one; RANGE when a range does not
fit. -/
def Obligations.ParchkFlagsMismatches : Prop :=
  decode 0x00000003#32 = .ok .parchk ∧
  ∀ s : State,
    (InBuf s.cfg s.regs.src.toNat s.regs.len.toNat → InBuf s.cfg s.regs.padr.toNat s.regs.len.toNat →
      InBuf s.cfg s.regs.dst.toNat s.regs.len.toNat →
      ∃ t, exec .parchk s = .next t ∧ SameOutside s t
        ∧ t.regs = { s.regs with
            res := BitVec.ofNat 64 ((List.range s.regs.len.toNat).countP fun k =>
              slotDisagrees (s.byte (s.regs.src.toNat + k)) (s.byte (s.regs.padr.toNat + k)))
            cmdcnt := s.regs.cmdcnt + 1#32
            status := { s.regs.status with mism := t.regs.status.mism } }
        ∧ (t.regs.status.mism = true ↔ ∃ k, k < s.regs.len.toNat ∧
            slotDisagrees (s.byte (s.regs.src.toNat + k)) (s.byte (s.regs.padr.toNat + k)) = true)
        ∧ (∀ k, k < s.regs.len.toNat → t.byte (s.regs.dst.toNat + k) =
            if slotDisagrees (s.byte (s.regs.src.toNat + k)) (s.byte (s.regs.padr.toNat + k)) then 0x01#8 else 0x00#8)
        ∧ SameBytesExcept s t s.regs.dst.toNat s.regs.len.toNat) ∧
    (¬ (InBuf s.cfg s.regs.src.toNat s.regs.len.toNat ∧ InBuf s.cfg s.regs.padr.toNat s.regs.len.toNat
        ∧ InBuf s.cfg s.regs.dst.toNat s.regs.len.toNat) →
      FaultsWith (exec .parchk s) s .range)

/-! ### Mirror and swap (42_mirror_swap.md) -/

/-- R141: bit i of RES is bit 7-i of OPA for i < 8, and 0 above; only RES and CMDCNT change; no fault. -/
def Obligations.MirEightReversesByte : Prop :=
  decode 0x00000010#32 = .ok .mir8 ∧
  ∀ s : State, ∃ r : DWord,
    exec .mir8 s = .next { s with regs := { s.regs with res := r, cmdcnt := s.regs.cmdcnt + 1#32 } } ∧
    ∀ i, r.getLsbD i = (decide (i < 8) && s.regs.opaLo.getLsbD (7 - i))

/-- R145 with R144: bit i of RES is bit 8·(i/8) + 7 − i mod 8 of OPA[31:0] for i < 32, and 0 above; no fault. -/
def Obligations.MirThirtyTwoReversesEachByte : Prop :=
  decode 0x00000012#32 = .ok .mir32 ∧
  ∀ s : State, ∃ r : DWord,
    exec .mir32 s = .next { s with regs := { s.regs with res := r, cmdcnt := s.regs.cmdcnt + 1#32 } } ∧
    ∀ i, r.getLsbD i = (decide (i < 32) && s.regs.opaLo.getLsbD (8 * (i / 8) + (7 - i % 8)))

/-- R147 with R146: bit i of RES is bit 8·(i/8) + 7 − i mod 8 of OPA = {OPA_HI, OPA_LO}; no fault. -/
def Obligations.MirSixtyFourReversesEachByte : Prop :=
  decode 0x00000013#32 = .ok .mir64 ∧
  ∀ s : State, ∃ r : DWord,
    exec .mir64 s = .next { s with regs := { s.regs with res := r, cmdcnt := s.regs.cmdcnt + 1#32 } } ∧
    ∀ i, i < 64 → r.getLsbD i =
      if i < 32 then s.regs.opaLo.getLsbD (8 * (i / 8) + (7 - i % 8))
      else s.regs.opaHi.getLsbD (8 * (i / 8) + (7 - i % 8) - 32)

/-- R143: every byte at SRC is bit-reversed in place and nothing else changes; RANGE when the range does not fit. -/
def Obligations.MirbufReversesBytesInPlace : Prop :=
  decode 0x00000011#32 = .ok .mirbuf ∧
  ∀ s : State,
    (InBuf s.cfg s.regs.src.toNat s.regs.len.toNat →
      ∃ t, exec .mirbuf s = .next t ∧ SameOutside s t
        ∧ t.regs = { s.regs with cmdcnt := s.regs.cmdcnt + 1#32 }
        ∧ (∀ k j, k < s.regs.len.toNat → j < 8 →
            (t.byte (s.regs.src.toNat + k)).getLsbD j = (s.byte (s.regs.src.toNat + k)).getLsbD (7 - j))
        ∧ SameBytesExcept s t s.regs.src.toNat s.regs.len.toNat) ∧
    (¬ InBuf s.cfg s.regs.src.toNat s.regs.len.toNat → FaultsWith (exec .mirbuf s) s .range)

/-- R142: mir is an involution on all 256 bytes, and MIRBUF twice yields the original buffer. -/
def Obligations.MirroringTwiceRestores : Prop :=
  (∀ b : Byte, mir (mir b) = b) ∧
  ∀ s : State, InBuf s.cfg s.regs.src.toNat s.regs.len.toNat →
    ∃ t u, exec .mirbuf s = .next t ∧ exec .mirbuf t = .next u ∧ SameBytes s u

/-- R148: RES[31:0] is the big-endian reading of the 4 bytes at SRC, RES_HI is 0; BUF is untouched; RANGE when the bytes
do not fit. -/
def Obligations.SwpThirtyTwoReversesBytes : Prop :=
  decode 0x00000018#32 = .ok .swp32 ∧
  ∀ s : State,
    (InBuf s.cfg s.regs.src.toNat 4 → ∃ r : DWord,
      exec .swp32 s = .next { s with regs := { s.regs with res := r, cmdcnt := s.regs.cmdcnt + 1#32 } } ∧
      ∀ i, r.getLsbD i = (decide (i < 32) && (s.byte (s.regs.src.toNat + (3 - i / 8))).getLsbD (i % 8))) ∧
    (¬ InBuf s.cfg s.regs.src.toNat 4 → FaultsWith (exec .swp32 s) s .range)

/-- R149: RES is the big-endian reading of the 8 bytes at SRC; BUF is untouched; RANGE when the bytes do not fit. -/
def Obligations.SwpSixtyFourReversesBytes : Prop :=
  decode 0x00000019#32 = .ok .swp64 ∧
  ∀ s : State,
    (InBuf s.cfg s.regs.src.toNat 8 → ∃ r : DWord,
      exec .swp64 s = .next { s with regs := { s.regs with res := r, cmdcnt := s.regs.cmdcnt + 1#32 } } ∧
      ∀ i, i < 64 → r.getLsbD i = (s.byte (s.regs.src.toNat + (7 - i / 8))).getLsbD (i % 8)) ∧
    (¬ InBuf s.cfg s.regs.src.toNat 8 → FaultsWith (exec .swp64 s) s .range)

/-- R144, R146, R150: the lane laws of mir32, mir64, swap32 and swap64, and the swaps are involutions. -/
def Obligations.MirrorAndSwapActOnByteLanes : Prop :=
  (∀ (x : Word) (k : Nat), k < 4 →
    (mir32 x).extractLsb' (8 * k) 8 = mir (x.extractLsb' (8 * k) 8)
    ∧ (swap32 x).extractLsb' (8 * k) 8 = x.extractLsb' (8 * (3 - k)) 8) ∧
  (∀ (x : DWord) (k : Nat), k < 8 →
    (mir64 x).extractLsb' (8 * k) 8 = mir (x.extractLsb' (8 * k) 8)
    ∧ (swap64 x).extractLsb' (8 * k) 8 = x.extractLsb' (8 * (7 - k)) 8) ∧
  (∀ x : Word, swap32 (swap32 x) = x) ∧ (∀ x : DWord, swap64 (swap64 x) = x)

/-! ### CRC-A (43_crc_a.md) -/

/-- R160, R161: `crc_step` is the exclusive-or and the eight conditional shifts, `crc_a` its fold from the seed with no final
exclusive-or, and the checksum travels low byte first. (The spec marks the shift procedure, the absent final exclusive-or
and the check value as general knowledge; its rules state them all the same.) -/
def Obligations.CrcFoldsTheBitSerialStep : Prop :=
  (∀ (c : Half) (b : Byte),
    crcStep c b =
      (fun x : Half => if x.getLsbD 0 then (x >>> 1) ^^^ 0x8408#16 else x >>> 1)^[8] (c ^^^ b.setWidth 16)) ∧
  crcA [] = 0x6363#16 ∧
  (∀ (s : List Byte) (b : Byte), crcA (s ++ [b]) = crcStep (crcA s) b) ∧
  (∀ c : Half, crcBytes c = [c.extractLsb' 0 8, c.extractLsb' 8 8]) ∧
  crcA [0x31#8, 0x32#8, 0x33#8, 0x34#8, 0x35#8, 0x36#8, 0x37#8, 0x38#8, 0x39#8] = 0xBF05#16

/-- R162 (the spec's own derivation): the byte-wise form equals the bit-serial step, for every c and b. -/
def Obligations.CrcStepHasByteWiseForm : Prop :=
  ∀ (c : Half) (b : Byte),
    let t0 : Byte := b ^^^ c.extractLsb' 0 8
    let t : Byte := t0 ^^^ (t0 <<< 4)
    crcStep c b = (c >>> 8) ^^^ (t.setWidth 16 <<< 8) ^^^ (t.setWidth 16 <<< 3) ^^^ (t.setWidth 16 >>> 4)

/-- R164 (the spec's own derivation): a sequence followed by its own CRC-A, low byte first, has CRC 0x0000. -/
def Obligations.CrcOfDataAndTrailerIsZero : Prop :=
  ∀ s : List Byte, crcA (s ++ [(crcA s).extractLsb' 0 8, (crcA s).extractLsb' 8 8]) = 0x0000#16

/-- R163: CRC and RES hold the CRC-A of the LEN bytes at SRC, DST its low byte, DST+1 its high byte, and nothing else
changes; RANGE when a range does not fit. -/
def Obligations.CrcaStoresChecksum : Prop :=
  decode 0x00000020#32 = .ok .crca ∧
  ∀ s : State,
    (InBuf s.cfg s.regs.src.toNat s.regs.len.toNat → InBuf s.cfg s.regs.dst.toNat 2 →
      ∃ t, exec .crca s = .next t ∧ SameOutside s t
        ∧ t.regs = { s.regs with
            crc := crcA (s.bytesAt s.regs.src.toNat s.regs.len.toNat)
            res := (crcA (s.bytesAt s.regs.src.toNat s.regs.len.toNat)).setWidth 64
            cmdcnt := s.regs.cmdcnt + 1#32 }
        ∧ t.byte s.regs.dst.toNat = (crcA (s.bytesAt s.regs.src.toNat s.regs.len.toNat)).extractLsb' 0 8
        ∧ t.byte (s.regs.dst.toNat + 1) = (crcA (s.bytesAt s.regs.src.toNat s.regs.len.toNat)).extractLsb' 8 8
        ∧ SameBytesExcept s t s.regs.dst.toNat 2) ∧
    (¬ (InBuf s.cfg s.regs.src.toNat s.regs.len.toNat ∧ InBuf s.cfg s.regs.dst.toNat 2) →
      FaultsWith (exec .crca s) s .range)

/-- R166: CRC and RES hold the CRC-A of all but the last two bytes, VOK says whether those two are it, low byte first;
BUF is untouched; BADLEN below two bytes, checked before RANGE. -/
def Obligations.CrcvComparesTrailer : Prop :=
  decode 0x00000021#32 = .ok .crcv ∧
  ∀ s : State,
    (2 ≤ s.regs.len.toNat → InBuf s.cfg s.regs.src.toNat s.regs.len.toNat →
      ∃ v : Bool, exec .crcv s = .next { s with regs := { s.regs with
          crc := crcA (s.bytesAt s.regs.src.toNat (s.regs.len.toNat - 2))
          res := (crcA (s.bytesAt s.regs.src.toNat (s.regs.len.toNat - 2))).setWidth 64
          cmdcnt := s.regs.cmdcnt + 1#32
          status := { s.regs.status with vok := v } } }
        ∧ (v = true ↔
          s.byte (s.regs.src.toNat + s.regs.len.toNat - 2) =
            (crcA (s.bytesAt s.regs.src.toNat (s.regs.len.toNat - 2))).extractLsb' 0 8
          ∧ s.byte (s.regs.src.toNat + s.regs.len.toNat - 1) =
            (crcA (s.bytesAt s.regs.src.toNat (s.regs.len.toNat - 2))).extractLsb' 8 8)) ∧
    (s.regs.len.toNat < 2 → FaultsWith (exec .crcv s) s .badlen) ∧
    (2 ≤ s.regs.len.toNat → ¬ InBuf s.cfg s.regs.src.toNat s.regs.len.toNat → FaultsWith (exec .crcv s) s .range)

/-- R163 and R166 together ("recomputing CRC over data with the CRC bytes appended and checking against the trailing
bytes round-trips", R164): data followed in place by its CRCA checksum passes CRCV, whatever the data. -/
def Obligations.CrcaThenCrcvVerifies : Prop :=
  ∀ s : State,
    s.regs.dst.toNat = s.regs.src.toNat + s.regs.len.toNat → s.regs.len.toNat + 2 ≤ 65535 →
    InBuf s.cfg s.regs.src.toNat (s.regs.len.toNat + 2) →
    ∃ t, exec .crca s = .next t ∧
      ∃ u, exec .crcv { t with regs := { t.regs with len := s.regs.len + 2#16 } } = .next u
        ∧ u.regs.status.vok = true ∧ u.regs.crc = t.regs.crc
        ∧ crcA (t.bytesAt s.regs.src.toNat (s.regs.len.toNat + 2)) = 0x0000#16

/-- R166's corner case (the spec's own derivation), for a whole byte, so for every one-bit change: where CRCV verifies a
buffer, it rejects every buffer that differs from it in exactly one byte of the range, data or trailer. -/
def Obligations.CrcvRejectsOneChangedByte : Prop :=
  ∀ (s s' : State) (p : Nat),
    2 ≤ s.regs.len.toNat → InBuf s.cfg s.regs.src.toNat s.regs.len.toNat →
    s'.regs = s.regs → s'.cfg = s.cfg → p < s.regs.len.toNat →
    s'.byte (s.regs.src.toNat + p) ≠ s.byte (s.regs.src.toNat + p) →
    (∀ k, k < s.regs.len.toNat → k ≠ p → s'.byte (s.regs.src.toNat + k) = s.byte (s.regs.src.toNat + k)) →
    (∃ t, exec .crcv s = .next t ∧ t.regs.status.vok = true) →
    ∃ t', exec .crcv s' = .next t' ∧ t'.regs.status.vok = false

/-! ### Responder (44_responder.md) -/

/-- R185 with R184: CFG latches UID, ATQA and SAK, the exclusive-or of the UID bytes and the CRC-A of the SAK, sets
CFG_VALID, and touches nothing else (CRC and RES among it); no fault, in every state. -/
def Obligations.CfgLatchesIdentity : Prop :=
  decode 0x00000030#32 = .ok .cfg ∧
  ∀ s : State, exec .cfg s = .next { s with regs := { s.regs with
    iuid := s.regs.uid
    iatqa := s.regs.atqa
    isak := s.regs.sak
    bcc := s.regs.uid.extractLsb' 0 8 ^^^ s.regs.uid.extractLsb' 8 8
      ^^^ s.regs.uid.extractLsb' 16 8 ^^^ s.regs.uid.extractLsb' 24 8
    sakcrc := crcA [s.regs.sak]
    status := { s.regs.status with cfgValid := true }
    cmdcnt := s.regs.cmdcnt + 1#32 } }

/-- R186 with R180: the class of LEN into CLASS and its code into RES, and nothing else; no fault and no need of CFG. -/
def Obligations.ClassifyByBitCount : Prop :=
  decode 0x00000031#32 = .ok .classify ∧
  ∀ s : State, ∃ (k : FrameClass) (c : DWord),
    exec .classify s = .next { s with regs := { s.regs with
      res := c, status := { s.regs.status with cls := k }, cmdcnt := s.regs.cmdcnt + 1#32 } } ∧
    (s.regs.len = 7#16 → k = .request ∧ c = 1#64) ∧
    (s.regs.len = 16#16 → k = .selectAll ∧ c = 2#64) ∧
    (s.regs.len = 72#16 → k = .selectTag ∧ c = 3#64) ∧
    (s.regs.len ≠ 7#16 → s.regs.len ≠ 16#16 → s.regs.len ≠ 72#16 → k = .unknown ∧ c = 0#64)

/-- R187, R188 with R181: a configured HANDLE writes the reply its bit count selects, byte by byte, with RLEN, CLASS and
REPLY, and nothing else; an unknown length writes no byte and is no fault; NOCFG first, then RANGE. -/
def Obligations.HandleAnswersByBitCount : Prop :=
  decode 0x00000032#32 = .ok .handle ∧
  ∀ s : State,
    (s.regs.status.cfgValid = false → FaultsWith (exec .handle s) s .nocfg) ∧
    (s.regs.status.cfgValid = true → ¬ InBuf s.cfg s.regs.dst.toNat (replyBytes s.regs.len.toNat) →
      FaultsWith (exec .handle s) s .range) ∧
    (s.regs.status.cfgValid = true → InBuf s.cfg s.regs.dst.toNat (replyBytes s.regs.len.toNat) →
      ∃ t, exec .handle s = .next t ∧ SameOutside s t
        ∧ t.regs = { s.regs with
            rlen := BitVec.ofNat 16 (8 * replyBytes s.regs.len.toNat)
            status := { s.regs.status with cls := t.regs.status.cls, reply := t.regs.status.reply }
            cmdcnt := s.regs.cmdcnt + 1#32 }
        ∧ SameBytesExcept s t s.regs.dst.toNat (replyBytes s.regs.len.toNat)
        ∧ (s.regs.len = 7#16 → t.regs.status.cls = .request ∧ t.regs.status.reply = true
            ∧ t.bytesAt s.regs.dst.toNat 2 = [s.regs.iatqa.extractLsb' 0 8, s.regs.iatqa.extractLsb' 8 8])
        ∧ (s.regs.len = 16#16 → t.regs.status.cls = .selectAll ∧ t.regs.status.reply = true
            ∧ t.bytesAt s.regs.dst.toNat 5 = [s.regs.iuid.extractLsb' 0 8, s.regs.iuid.extractLsb' 8 8,
                s.regs.iuid.extractLsb' 16 8, s.regs.iuid.extractLsb' 24 8, s.regs.bcc])
        ∧ (s.regs.len = 72#16 → t.regs.status.cls = .selectTag ∧ t.regs.status.reply = true
            ∧ t.bytesAt s.regs.dst.toNat 3 =
                [s.regs.isak, s.regs.sakcrc.extractLsb' 0 8, s.regs.sakcrc.extractLsb' 8 8])
        ∧ (s.regs.len ≠ 7#16 → s.regs.len ≠ 16#16 → s.regs.len ≠ 72#16 →
            t.regs.status.cls = .unknown ∧ t.regs.status.reply = false ∧ SameBytes s t))

/-- R182, R190: the reply depends on the bit count and the latched identity alone. Two configured blocks that agree on
those and on DST give the same reply, whatever BUF, SRC and every other register hold. -/
def Obligations.ReplyDependsOnLengthAndIdentity : Prop :=
  ∀ s s' : State,
    s.regs.status.cfgValid = true → s'.regs.status.cfgValid = true → SameIdentity s.regs s'.regs →
    s'.regs.len = s.regs.len → s'.regs.dst = s.regs.dst →
    InBuf s.cfg s.regs.dst.toNat (replyBytes s.regs.len.toNat) →
    InBuf s'.cfg s.regs.dst.toNat (replyBytes s.regs.len.toNat) →
    ∃ t t', exec .handle s = .next t ∧ exec .handle s' = .next t'
      ∧ t'.regs.rlen = t.regs.rlen ∧ t'.regs.status.cls = t.regs.status.cls
      ∧ t'.regs.status.reply = t.regs.status.reply
      ∧ t'.bytesAt s.regs.dst.toNat (replyBytes s.regs.len.toNat) =
          t.bytesAt s.regs.dst.toNat (replyBytes s.regs.len.toNat)

/-! ### BitBuffers (45_bitbuffer.md) -/

/-- R203: the byte count, the residual bit count and the last-byte mask of LEN, field by field; no fault, and only RES and
CMDCNT change. -/
def Obligations.BpackGivesByteGeometry : Prop :=
  decode 0x00000040#32 = .ok .bpack ∧
  ∀ s : State, ∃ r : DWord,
    exec .bpack s = .next { s with regs := { s.regs with res := r, cmdcnt := s.regs.cmdcnt + 1#32 } } ∧
    (r.extractLsb' 0 16).toNat = (s.regs.len.toNat + 7) / 8 ∧
    (r.extractLsb' 16 3).toNat = s.regs.len.toNat % 8 ∧
    r.extractLsb' 19 5 = 0#5 ∧
    (∀ j, j < 8 → r.getLsbD (24 + j) =
      (decide (s.regs.len.toNat ≠ 0) && (decide (s.regs.len.toNat % 8 = 0) || decide (j < s.regs.len.toNat % 8)))) ∧
    r.extractLsb' 32 32 = 0#32

/-- R205 with R204: output bit i is input bit i + SHAMT, the count saturates at zero, pad bits are 0, and nothing else
changes; RANGE when a range does not fit. -/
def Obligations.BshrDropsLeadingBits : Prop :=
  decode 0x00000041#32 = .ok .bshr ∧
  ∀ s : State, ∀ n k n2 : Nat, n = s.regs.len.toNat → k = s.regs.shamt.toNat → n2 = (if k ≤ n then n - k else 0) →
    (InBuf s.cfg s.regs.src.toNat ((n + 7) / 8) → InBuf s.cfg s.regs.dst.toNat ((n2 + 7) / 8) →
      ∃ t, exec .bshr s = .next t ∧ SameOutside s t
        ∧ t.regs = { s.regs with res := BitVec.ofNat 64 n2, cmdcnt := s.regs.cmdcnt + 1#32 }
        ∧ (∀ i, i < n2 → t.bitAt s.regs.dst.toNat i = s.bitAt s.regs.src.toNat (i + k))
        ∧ (∀ i, n2 ≤ i → i < 8 * ((n2 + 7) / 8) → t.bitAt s.regs.dst.toNat i = false)
        ∧ SameBytesExcept s t s.regs.dst.toNat ((n2 + 7) / 8)) ∧
    (¬ (InBuf s.cfg s.regs.src.toNat ((n + 7) / 8) ∧ InBuf s.cfg s.regs.dst.toNat ((n2 + 7) / 8)) →
      FaultsWith (exec .bshr s) s .range)

/-- R207 with R204: SHAMT zero bits, then the input bits, pad bits 0, and nothing else changes; BADLEN when the output has
more than 65535 bits, then RANGE. -/
def Obligations.BshlPrependsZeroBits : Prop :=
  decode 0x00000042#32 = .ok .bshl ∧
  ∀ s : State, ∀ n k : Nat, n = s.regs.len.toNat → k = s.regs.shamt.toNat →
    (n + k ≤ 65535 → InBuf s.cfg s.regs.src.toNat ((n + 7) / 8) →
      InBuf s.cfg s.regs.dst.toNat ((n + k + 7) / 8) →
      ∃ t, exec .bshl s = .next t ∧ SameOutside s t
        ∧ t.regs = { s.regs with res := BitVec.ofNat 64 (n + k), cmdcnt := s.regs.cmdcnt + 1#32 }
        ∧ (∀ i, i < k → t.bitAt s.regs.dst.toNat i = false)
        ∧ (∀ i, k ≤ i → i < n + k → t.bitAt s.regs.dst.toNat i = s.bitAt s.regs.src.toNat (i - k))
        ∧ (∀ i, n + k ≤ i → i < 8 * ((n + k + 7) / 8) → t.bitAt s.regs.dst.toNat i = false)
        ∧ SameBytesExcept s t s.regs.dst.toNat ((n + k + 7) / 8)) ∧
    (65535 < n + k → FaultsWith (exec .bshl s) s .badlen) ∧
    (n + k ≤ 65535 →
      ¬ (InBuf s.cfg s.regs.src.toNat ((n + 7) / 8) ∧ InBuf s.cfg s.regs.dst.toNat ((n + k + 7) / 8)) →
      FaultsWith (exec .bshl s) s .range)

/-- R209 with R208: each whole data byte followed by its slot's bit 0, then the residual bits, pad bits 0, and nothing
else changes; BADLEN when the stream has more than 65535 bits, then RANGE. -/
def Obligations.WrapInterleavesParity : Prop :=
  decode 0x00000043#32 = .ok .wrap ∧
  ∀ s : State, ∀ n q : Nat, n = s.regs.len.toNat → q = n / 8 →
    (n + q ≤ 65535 → InBuf s.cfg s.regs.src.toNat ((n + 7) / 8) → InBuf s.cfg s.regs.padr.toNat q →
      InBuf s.cfg s.regs.dst.toNat ((n + q + 7) / 8) →
      ∃ t, exec .wrap s = .next t ∧ SameOutside s t
        ∧ t.regs = { s.regs with res := BitVec.ofNat 64 (n + q), cmdcnt := s.regs.cmdcnt + 1#32 }
        ∧ (∀ j b, j < q → b < 8 → t.bitAt s.regs.dst.toNat (9 * j + b) = s.bitAt s.regs.src.toNat (8 * j + b))
        ∧ (∀ j, j < q → t.bitAt s.regs.dst.toNat (9 * j + 8) = (s.byte (s.regs.padr.toNat + j)).getLsbD 0)
        ∧ (∀ b, b < n % 8 → t.bitAt s.regs.dst.toNat (9 * q + b) = s.bitAt s.regs.src.toNat (8 * q + b))
        ∧ (∀ i, n + q ≤ i → i < 8 * ((n + q + 7) / 8) → t.bitAt s.regs.dst.toNat i = false)
        ∧ SameBytesExcept s t s.regs.dst.toNat ((n + q + 7) / 8)) ∧
    (65535 < n + q → FaultsWith (exec .wrap s) s .badlen) ∧
    (n + q ≤ 65535 →
      ¬ (InBuf s.cfg s.regs.src.toNat ((n + 7) / 8) ∧ InBuf s.cfg s.regs.padr.toNat q
        ∧ InBuf s.cfg s.regs.dst.toNat ((n + q + 7) / 8)) →
      FaultsWith (exec .wrap s) s .range)

/-- R213 with R208, R211 and 20_memory.md R67: the data bits at DST, the parity bits as slots at PADR, a slot winning
where the ranges overlap, pad bits 0, and nothing else changes; BADLEN when LEN mod 9 = 8, then RANGE. -/
def Obligations.UnwrapSplitsStream : Prop :=
  decode 0x00000044#32 = .ok .unwrap ∧
  ∀ s : State, ∀ m q n : Nat, m = s.regs.len.toNat → q = m / 9 → n = 8 * q + m % 9 →
    (m % 9 ≠ 8 → InBuf s.cfg s.regs.src.toNat ((m + 7) / 8) → InBuf s.cfg s.regs.dst.toNat ((n + 7) / 8) →
      InBuf s.cfg s.regs.padr.toNat q →
      ∃ t, exec .unwrap s = .next t ∧ SameOutside s t
        ∧ t.regs = { s.regs with res := BitVec.ofNat 64 n, cmdcnt := s.regs.cmdcnt + 1#32 }
        ∧ (∀ j, j < q → t.byte (s.regs.padr.toNat + j) =
            if s.bitAt s.regs.src.toNat (9 * j + 8) then 0x01#8 else 0x00#8)
        ∧ (∀ i, i < 8 * ((n + 7) / 8) →
            (s.regs.dst.toNat + i / 8 < s.regs.padr.toNat ∨ s.regs.padr.toNat + q ≤ s.regs.dst.toNat + i / 8) →
            t.bitAt s.regs.dst.toNat i =
              (decide (i < n) && s.bitAt s.regs.src.toNat (9 * (i / 8) + i % 8)))
        ∧ (∀ x, (x < s.regs.dst.toNat ∨ s.regs.dst.toNat + (n + 7) / 8 ≤ x) →
            (x < s.regs.padr.toNat ∨ s.regs.padr.toNat + q ≤ x) → t.byte x = s.byte x)) ∧
    (m % 9 = 8 → FaultsWith (exec .unwrap s) s .badlen) ∧
    (m % 9 ≠ 8 →
      ¬ (InBuf s.cfg s.regs.src.toNat ((m + 7) / 8) ∧ InBuf s.cfg s.regs.dst.toNat ((n + 7) / 8)
        ∧ InBuf s.cfg s.regs.padr.toNat q) →
      FaultsWith (exec .unwrap s) s .range)

/-- R206 (the spec's own derivation): BSHR by k of the output of BSHL by k gives the original n bits, wherever the two
outputs go. -/
def Obligations.BshrUndoesBshl : Prop :=
  ∀ (s : State) (d : Half) (n k : Nat), n = s.regs.len.toNat → k = s.regs.shamt.toNat → n + k ≤ 65535 →
    InBuf s.cfg s.regs.src.toNat ((n + 7) / 8) → InBuf s.cfg s.regs.dst.toNat ((n + k + 7) / 8) →
    InBuf s.cfg d.toNat ((n + 7) / 8) →
    ∃ t, exec .bshl s = .next t ∧
      ∃ u, exec .bshr { t with regs := { t.regs with
          src := s.regs.dst, len := BitVec.ofNat 16 (n + k), dst := d } } = .next u
        ∧ u.regs.res = BitVec.ofNat 64 n
        ∧ (∀ i, i < n → u.bitAt d.toNat i = s.bitAt s.regs.src.toNat i)
        ∧ (∀ i, n ≤ i → i < 8 * ((n + 7) / 8) → u.bitAt d.toNat i = false)

/-- R206 (the spec's own derivation): BSHL by k of the output of BSHR by k ≤ n gives the original n bits with the first k
cleared. -/
def Obligations.BshlAfterBshrClearsLeadingBits : Prop :=
  ∀ (s : State) (d : Half) (n k : Nat), n = s.regs.len.toNat → k = s.regs.shamt.toNat → k ≤ n →
    InBuf s.cfg s.regs.src.toNat ((n + 7) / 8) → InBuf s.cfg s.regs.dst.toNat ((n - k + 7) / 8) →
    InBuf s.cfg d.toNat ((n + 7) / 8) →
    ∃ t, exec .bshr s = .next t ∧
      ∃ u, exec .bshl { t with regs := { t.regs with
          src := s.regs.dst, len := BitVec.ofNat 16 (n - k), dst := d } } = .next u
        ∧ u.regs.res = BitVec.ofNat 64 n
        ∧ ∀ i, i < n → u.bitAt d.toNat i = (decide (k ≤ i) && s.bitAt s.regs.src.toNat i)

/-- R206 (the spec's own derivation): BSHR by k1 and then by k2 equals BSHR by k1 + k2, in bit count and in bits, when
k1 + k2 ≤ 65535. -/
def Obligations.BshrComposes : Prop :=
  ∀ (s : State) (d k2 : Half) (n k1 : Nat), n = s.regs.len.toNat → k1 = s.regs.shamt.toNat → k1 + k2.toNat ≤ 65535 →
    InBuf s.cfg s.regs.src.toNat ((n + 7) / 8) → InBuf s.cfg s.regs.dst.toNat ((n - k1 + 7) / 8) →
    InBuf s.cfg d.toNat ((n - (k1 + k2.toNat) + 7) / 8) →
    ∃ t, exec .bshr s = .next t ∧
      ∃ u v, exec .bshr { t with regs := { t.regs with
          src := s.regs.dst, len := BitVec.ofNat 16 (n - k1), dst := d, shamt := k2 } } = .next u
        ∧ exec .bshr { s with regs := { s.regs with dst := d, shamt := s.regs.shamt + k2 } } = .next v
        ∧ u.regs.res = v.regs.res
        ∧ ∀ i, i < 8 * ((n - (k1 + k2.toNat) + 7) / 8) → u.bitAt d.toNat i = v.bitAt d.toNat i

/-- R214 (the spec's own derivation), first half: UNWRAP of the output of WRAP returns the n data bits, pad bits zero, and
the slots as 0x00 or 0x01, wherever the outputs go (the two outputs of UNWRAP apart from each other). -/
def Obligations.UnwrapUndoesWrap : Prop :=
  ∀ (s : State) (d p : Half) (n q : Nat), n = s.regs.len.toNat → q = n / 8 → n ≤ 58254 →
    InBuf s.cfg s.regs.src.toNat ((n + 7) / 8) → InBuf s.cfg s.regs.padr.toNat q →
    InBuf s.cfg s.regs.dst.toNat ((n + q + 7) / 8) →
    InBuf s.cfg d.toNat ((n + 7) / 8) → InBuf s.cfg p.toNat q →
    (d.toNat + (n + 7) / 8 ≤ p.toNat ∨ p.toNat + q ≤ d.toNat) →
    ∃ t, exec .wrap s = .next t ∧
      ∃ u, exec .unwrap { t with regs := { t.regs with
          src := s.regs.dst, len := BitVec.ofNat 16 (n + q), dst := d, padr := p } } = .next u
        ∧ u.regs.res = BitVec.ofNat 64 n
        ∧ (∀ i, i < 8 * ((n + 7) / 8) → u.bitAt d.toNat i = (decide (i < n) && s.bitAt s.regs.src.toNat i))
        ∧ (∀ j, j < q → u.byte (p.toNat + j) =
            if (s.byte (s.regs.padr.toNat + j)).getLsbD 0 then 0x01#8 else 0x00#8)

/-- R214 (the spec's own derivation), second half: WRAP of the outputs of UNWRAP returns the m stream bits of every valid
stream (DST and PADR of the UNWRAP apart from each other). -/
def Obligations.WrapUndoesUnwrap : Prop :=
  ∀ (s : State) (d : Half) (m q n : Nat), m = s.regs.len.toNat → q = m / 9 → n = 8 * q + m % 9 → m % 9 ≠ 8 →
    InBuf s.cfg s.regs.src.toNat ((m + 7) / 8) → InBuf s.cfg s.regs.dst.toNat ((n + 7) / 8) →
    InBuf s.cfg s.regs.padr.toNat q → InBuf s.cfg d.toNat ((m + 7) / 8) →
    (s.regs.dst.toNat + (n + 7) / 8 ≤ s.regs.padr.toNat ∨ s.regs.padr.toNat + q ≤ s.regs.dst.toNat) →
    ∃ t, exec .unwrap s = .next t ∧
      ∃ u, exec .wrap { t with regs := { t.regs with
          src := s.regs.dst, len := BitVec.ofNat 16 n, dst := d } } = .next u
        ∧ u.regs.res = BitVec.ofNat 64 m
        ∧ ∀ i, i < m → u.bitAt d.toNat i = s.bitAt s.regs.src.toNat i

/-! ### Whole-machine rules -/

/-- R21: no command writes a register the host owns, and no command touches the parameter, the draw or the host's side. -/
def Obligations.CommandsNeverWriteHostRegisters : Prop :=
  ∀ (i : Instr) (s : State), ∃ t, exec i s = .next t ∧ SameHostRegs s.regs t.regs ∧ SameOutside s t

/-- The writers R35, R36, R38 to R41 name: RES keeps under NOP, PARBUF, MIRBUF, CFG and HANDLE, CRC changes only under
CRCA and CRCV, the latched identity only under CFG, RLEN only under HANDLE. -/
def Obligations.ResultRegistersHaveTheirWriters : Prop :=
  ∀ (i : Instr) (s t : State), exec i s = .next t →
    (i = .nop ∨ i = .parbuf ∨ i = .mirbuf ∨ i = .cfg ∨ i = .handle → t.regs.res = s.regs.res) ∧
    (i ≠ .crca → i ≠ .crcv → t.regs.crc = s.regs.crc) ∧
    (i ≠ .cfg → SameIdentity s.regs t.regs) ∧
    (i ≠ .handle → t.regs.rlen = s.regs.rlen)

/-- The "written by" column of 10_state.md R25 and R26 to R29: each STATUS result field changes only under its commands,
and no command clears CFG_VALID. -/
def Obligations.StatusFieldsHaveTheirWriters : Prop :=
  ∀ (i : Instr) (s t : State), exec i s = .next t →
    (i ≠ .crcv → t.regs.status.vok = s.regs.status.vok) ∧
    (i ≠ .parchk → t.regs.status.mism = s.regs.status.mism) ∧
    (i ≠ .classify → i ≠ .handle → t.regs.status.cls = s.regs.status.cls) ∧
    (i ≠ .handle → t.regs.status.reply = s.regs.status.reply) ∧
    (i ≠ .cfg → t.regs.status.cfgValid = s.regs.status.cfgValid) ∧
    (s.regs.status.cfgValid = true → t.regs.status.cfgValid = true)

/-- R70: a command never writes a byte outside the ranges its rule names; one that faults writes none. -/
def Obligations.CommandsWriteOnlyTheirRanges : Prop :=
  ∀ (i : Instr) (s t : State) (x : Nat), exec i s = .next t →
    (∀ r ∈ outputRanges i s, x < r.1 ∨ r.1 + r.2 ≤ x) ∨ t.regs.cmdcnt = s.regs.cmdcnt →
    t.byte x = s.byte x

/-- R70: a command never reads a byte outside the ranges its rule names. Two blocks with the same registers whose BUFs
agree there have the same registers after the command, and the same bytes in its output ranges if it completes. -/
def Obligations.CommandsReadOnlyTheirRanges : Prop :=
  ∀ (i : Instr) (s s' : State),
    s'.cfg = s.cfg → s'.regs = s.regs →
    (∀ r ∈ inputRanges i s, ∀ k, k < r.2 → s'.byte (r.1 + k) = s.byte (r.1 + k)) →
    ∃ t t', exec i s = .next t ∧ exec i s' = .next t' ∧ t'.regs = t.regs ∧
      (t.regs.cmdcnt ≠ s.regs.cmdcnt →
        ∀ r ∈ outputRanges i s, ∀ k, k < r.2 → t'.byte (r.1 + k) = t.byte (r.1 + k))

/-- The invariant every step keeps, from every state that has it: the parameter's bounds (R6), BUF in canonical form inside
BUF_BYTES, FAULT and FCODE together (R25), an unconfigured identity reading 0 (R38), BCC and SAKCRC derived from the
latched identity (R39, R40), RLEN one of its four values (R41) and REPLY telling of it (R28). -/
def Obligations.StepKeepsInvariant : Prop := ∀ s t : State, s.Inv → step s = .next t → t.Inv

/-- The invariant holds after reset, at every legal value of BUF_BYTES (256 at `State.reset` is the model's choice,
log 3). -/
def Obligations.ResetHasInvariant : Prop :=
  State.reset.Inv ∧ ∀ c : Config, c.wellFormed = true → (State.resetWith c).Inv

/-- R238 with R101 and R26: from a faulted state no run without a reset leaves the fault state or changes FCODE, CMDCNT,
any other register a command writes, or any BUF byte the host does not write itself. -/
def Obligations.FaultLastsUntilReset : Prop :=
  ∀ (n : Nat) (s t : State),
    s.faulted → (∀ a ∈ s.pending, isResetAccess a = false) → Sys2Proof.core.run n s = .next t →
      t.regs.status = s.regs.status ∧ t.regs.cmdcnt = s.regs.cmdcnt ∧ t.regs.res = s.regs.res
      ∧ t.regs.crc = s.regs.crc ∧ t.regs.rlen = s.regs.rlen ∧ SameIdentity s.regs t.regs
      ∧ ∀ x, (∀ a ∈ s.pending, writesBufByte x a = false) → t.byte x = s.byte x

/-- R190: the latched identity is written only by CFG and reset. A step whose access is neither a CMD write of CFG's word
nor a reset keeps it. -/
def Obligations.OnlyCfgAndResetChangeIdentity : Prop :=
  ∀ (s t : State), step s = .next t →
    (∀ a, s.pending.head? = some a → a ≠ .regWrite 0x00 0x00000030#32 ∧ isResetAccess a = false) →
    SameIdentity s.regs t.regs

/-- BUF_BYTES is fixed for the machine (R6; that State carries it is the model's choice, log 3), and unwritten bytes are
drawn anew by a hardware reset only: "drawn once at reset and held until the byte is written" (R262). -/
def Obligations.ParameterAndDrawAreFixed : Prop :=
  ∀ (s t : State), step s = .next t →
    t.cfg = s.cfg ∧
    (s.pending.head? ≠ some .hardReset → t.draws = s.draws
      ∧ ∀ x, Memory.byteAt? t.buf x = none → t.byte x = s.byte x)

/-! ### Reset (70_reset_and_hazards.md) -/

/-- R260: every register after a hardware reset, spelled out: after a hardware reset from any state, and in the state the
model starts in, at every value of the parameter. -/
def Obligations.RegistersAfterReset : Prop :=
  ∀ r : RegFile, r =
      { status := { fault := false, fcode := .none, cfgValid := false, reply := false, cls := .unknown, vok := false,
                    mism := false }
        src := 0#16, dst := 0#16, len := 0#16, padr := 0#16, shamt := 0#16, opaLo := 0#32, opaHi := 0#32, res := 0#64
        crc := 0x6363#16, uid := 0#32, atqa := 0#16, sak := 0#8, iuid := 0#32, iatqa := 0#16, isak := 0#8, bcc := 0#8
        sakcrc := 0#16, rlen := 0#16, cmdcnt := 0#32 } →
    State.reset.regs = r ∧ (∀ c : Config, (State.resetWith c).regs = r) ∧
    ∀ (s : State) (rest : List Access), s.pending = .hardReset :: rest → ∃ t, step s = .next t ∧ t.regs = r

/-- R261, R30: a CTRL write with bit 0 = 1 sets every register to its reset value and keeps BUF, in every state, faulted or
not; with bit 0 = 0 it has no effect. -/
def Obligations.CtrlWriteSoftResets : Prop :=
  ∀ (s : State) (v : Word) (rest : List Access), s.pending = .regWrite 0x08 v :: rest →
    ∃ t, step s = .next t ∧ SameBytes s t ∧ t.cfg = s.cfg ∧ t.draws = s.draws ∧ t.buf = s.buf ∧ t.pending = rest
      ∧ t.returned = s.returned
      ∧ (v.getLsbD 0 = true → t.regs = (State.resetWith s.cfg).regs)
      ∧ (v.getLsbD 0 = false → t.regs = s.regs)

/-- R260, R262: a hardware reset sets every register to its reset value; every BUF byte then holds the free value of a new
draw, the same on every read (the draw is the model's form of the unspecified contents, log 4; the reset as an item of the
host's list is its choice, log 8). The state the model starts in is the one at the parameter value 256 (its choice, log 3),
with no byte of BUF listed, so that every byte holds the free value of draw 0 (log 4). -/
def Obligations.HardwareResetDrawsBuffer : Prop :=
  (∀ (s : State) (rest : List Access), s.pending = .hardReset :: rest →
    ∃ t, step s = .next t ∧ t.cfg = s.cfg ∧ t.pending = rest ∧ t.returned = s.returned
      ∧ t.regs = (State.resetWith s.cfg).regs ∧ t.draws = s.draws + 1
      ∧ ∀ x, t.byte x = Config.powerOnByte (s.draws + 1) x) ∧
  State.reset = State.resetWith Config.ofVectors ∧
  ∀ c : Config, (State.resetWith c).cfg = c ∧ (State.resetWith c).buf = []
    ∧ ∀ x, (State.resetWith c).byte x = Config.powerOnByte 0 x

/-! ### Host accesses (10_state.md, 20_memory.md) -/

/-- R22, R24, R25, R30, R43: what a read returns at every offset, reserved bits 0, STATUS assembled field by field, 0 at CMD,
CTRL and the reserved offsets; a read changes nothing (R68). -/
def Obligations.RegisterReadsReturnTheMap : Prop :=
  ∀ (s : State) (rest : List Access) (off : Nat), s.pending = .regRead off :: rest → off % 4 = 0 → off < 0x80 →
    ∃ v : Word, step s = .next { s with pending := rest, returned := s.returned ++ [.reg v] } ∧
      (off = 0x00 ∨ off = 0x08 ∨ 0x5C ≤ off → v = 0#32) ∧
      (off = 0x04 → v.getLsbD 0 = s.regs.status.fault ∧ v.extractLsb' 1 3 = 0#3
        ∧ v.extractLsb' 4 4 = s.regs.status.fcode.code ∧ v.getLsbD 8 = s.regs.status.cfgValid
        ∧ v.getLsbD 9 = s.regs.status.reply ∧ v.extractLsb' 10 2 = s.regs.status.cls.code
        ∧ v.getLsbD 12 = s.regs.status.vok ∧ v.getLsbD 13 = s.regs.status.mism ∧ v.extractLsb' 14 18 = 0#18) ∧
      (off = 0x0C → v = s.regs.src.setWidth 32) ∧ (off = 0x10 → v = s.regs.dst.setWidth 32) ∧
      (off = 0x14 → v = s.regs.len.setWidth 32) ∧ (off = 0x18 → v = s.regs.padr.setWidth 32) ∧
      (off = 0x1C → v = s.regs.shamt.setWidth 32) ∧ (off = 0x20 → v = s.regs.opaLo) ∧
      (off = 0x24 → v = s.regs.opaHi) ∧ (off = 0x28 → v = s.regs.res.extractLsb' 0 32) ∧
      (off = 0x2C → v = s.regs.res.extractLsb' 32 32) ∧ (off = 0x30 → v = s.regs.crc.setWidth 32) ∧
      (off = 0x34 → v = s.regs.uid) ∧ (off = 0x38 → v = s.regs.atqa.setWidth 32) ∧
      (off = 0x3C → v = s.regs.sak.setWidth 32) ∧ (off = 0x40 → v = s.regs.iuid) ∧
      (off = 0x44 → v = s.regs.iatqa.setWidth 32) ∧ (off = 0x48 → v = s.regs.isak.setWidth 32) ∧
      (off = 0x4C → v = s.regs.bcc.setWidth 32) ∧ (off = 0x50 → v = s.regs.sakcrc.setWidth 32) ∧
      (off = 0x54 → v = s.regs.rlen.setWidth 32) ∧ (off = 0x58 → v = s.regs.cmdcnt)

/-- R44: a write to an RW register stores its implemented bits, so a following read returns them with reserved bits 0, and
no other register, no BUF byte and no STATUS field changes; a write to a register marked R (or, R43, at a reserved offset)
changes no state. -/
def Obligations.HostWritesStoreImplementedBits : Prop :=
  (∀ (s : State) (v : Word) (rest : List Access) (off : Nat) (mask : Word),
    (off, mask) ∈ [(0x0C, 0x0000FFFF#32), (0x10, 0x0000FFFF#32), (0x14, 0x0000FFFF#32), (0x18, 0x0000FFFF#32),
      (0x1C, 0x0000FFFF#32), (0x20, 0xFFFFFFFF#32), (0x24, 0xFFFFFFFF#32), (0x34, 0xFFFFFFFF#32),
      (0x38, 0x0000FFFF#32), (0x3C, 0x000000FF#32)] →
    s.pending = .regWrite off v :: .regRead off :: rest →
    ∃ t, Sys2Proof.core.run 2 s = .next t ∧ t.returned = s.returned ++ [.reg (v &&& mask)] ∧ t.pending = rest
      ∧ t.cfg = s.cfg ∧ t.draws = s.draws ∧ SameBytes s t
      ∧ ∀ x, x ≠ off → t.regs.readOffset x = s.regs.readOffset x) ∧
  ∀ (s : State) (v : Word) (rest : List Access) (off : Nat),
    off ∈ [0x04, 0x28, 0x2C, 0x30, 0x40, 0x44, 0x48, 0x4C, 0x50, 0x54, 0x58, 0x5C, 0x60, 0x64, 0x68, 0x6C, 0x70, 0x74,
      0x78, 0x7C] →
    s.pending = .regWrite off v :: rest → step s = .next { s with pending := rest }

/-- R64: the accesses that get a step are the 32-bit ones at REG offsets that are multiples of 4 below 0x80, the 8-bit ones at
BUF addresses below BUF_BYTES, and the resets (R260); every other access is refused, and nothing else stops the model. -/
def Obligations.OnlyIllFormedAccessesAreRefused : Prop :=
  ∀ (s : State) (a : Access) (rest : List Access), s.pending = a :: rest →
    ((∃ t, step s = .next t) ↔
      (∃ off, (a = .regRead off ∨ ∃ v, a = .regWrite off v) ∧ off % 4 = 0 ∧ off < 0x80) ∨
      (∃ x, (a = .bufRead x ∨ ∃ b, a = .bufWrite x b) ∧ x < s.cfg.bufBytes) ∨ a = .hardReset) ∧
    ((∃ t, step s = .next t) ∨ ∃ r, step s = .refused r)

/-- R42, R105: a command that completes adds one to CMDCNT, modulo 2^32; one that faults, and a CMD write ignored under FAULT,
leaves it; a reset sets it to 0; nothing else changes it. -/
def Obligations.CmdcntCountsCompletedCommands : Prop :=
  ∀ s t : State, step s = .next t →
    (∀ w rest, s.pending = .regWrite 0x00 w :: rest → ¬ t.faulted → t.regs.cmdcnt = s.regs.cmdcnt + 1#32) ∧
    (∀ w rest, s.pending = .regWrite 0x00 w :: rest → t.faulted → t.regs.cmdcnt = s.regs.cmdcnt) ∧
    (∀ a rest, s.pending = a :: rest → isResetAccess a = true → t.regs.cmdcnt = 0#32) ∧
    ((∀ a, s.pending.head? = some a → isResetAccess a = false ∧ ∀ w, a ≠ .regWrite 0x00 w) →
      t.regs.cmdcnt = s.regs.cmdcnt)

/-- R60, R68, R72: a host read of any BUF address returns what that byte then holds (whoever wrote it last, or the free value
of an unwritten one, log 4) and changes nothing; a host write of a byte makes that byte, and no other, the written one; so a
byte the host writes is what the next read of it returns. -/
def Obligations.BufferWriteThenRead : Prop :=
  (∀ (s : State) (a : Nat) (rest : List Access), s.pending = .bufRead a :: rest → a < s.cfg.bufBytes →
    step s = .next { s with pending := rest, returned := s.returned ++ [.buf (s.byte a)] }) ∧
  (∀ (s : State) (a : Nat) (b : Byte) (rest : List Access), s.pending = .bufWrite a b :: rest → a < s.cfg.bufBytes →
    ∃ t, step s = .next t ∧ t.regs = s.regs ∧ t.pending = rest ∧ t.returned = s.returned ∧ t.cfg = s.cfg
      ∧ t.draws = s.draws ∧ t.byte a = b ∧ SameBytesExcept s t a 1) ∧
  ∀ (s : State) (a : Nat) (b : Byte) (rest : List Access),
    s.pending = .bufWrite a b :: .bufRead a :: rest → a < s.cfg.bufBytes →
    ∃ t, Sys2Proof.core.run 2 s = .next t ∧ t.returned = s.returned ++ [.buf b] ∧ t.regs = s.regs ∧ t.pending = rest
      ∧ t.byte a = b ∧ SameBytesExcept s t a 1 ∧ t.cfg = s.cfg ∧ t.draws = s.draws
end

