-- ==== Sys2Proof/Laws/State.lean ====
section
/-! SUPPORT. What each named update does to each field of State: one lemma per field per update, all by rfl. -/

namespace Sys2Proof.Machine

variable (s : State)

/-! ### setRes -/

@[simp] theorem State.setRes_cfg (v : DWord) : (s.setRes v).cfg = s.cfg := rfl
@[simp] theorem State.setRes_regs (v : DWord) : (s.setRes v).regs = { s.regs with res := v } := rfl
@[simp] theorem State.setRes_buf (v : DWord) : (s.setRes v).buf = s.buf := rfl
@[simp] theorem State.setRes_draws (v : DWord) : (s.setRes v).draws = s.draws := rfl
@[simp] theorem State.setRes_pending (v : DWord) : (s.setRes v).pending = s.pending := rfl
@[simp] theorem State.setRes_returned (v : DWord) : (s.setRes v).returned = s.returned := rfl
@[simp] theorem State.setRes_byte (v : DWord) (x : Nat) : (s.setRes v).byte x = s.byte x := rfl

/-! ### setCrc -/

@[simp] theorem State.setCrc_cfg (c : Half) : (s.setCrc c).cfg = s.cfg := rfl
@[simp] theorem State.setCrc_regs (c : Half) : (s.setCrc c).regs = { s.regs with crc := c } := rfl
@[simp] theorem State.setCrc_buf (c : Half) : (s.setCrc c).buf = s.buf := rfl
@[simp] theorem State.setCrc_draws (c : Half) : (s.setCrc c).draws = s.draws := rfl
@[simp] theorem State.setCrc_pending (c : Half) : (s.setCrc c).pending = s.pending := rfl
@[simp] theorem State.setCrc_returned (c : Half) : (s.setCrc c).returned = s.returned := rfl
@[simp] theorem State.setCrc_byte (c : Half) (x : Nat) : (s.setCrc c).byte x = s.byte x := rfl

/-! ### setRlen -/

@[simp] theorem State.setRlen_cfg (n : Half) : (s.setRlen n).cfg = s.cfg := rfl
@[simp] theorem State.setRlen_regs (n : Half) : (s.setRlen n).regs = { s.regs with rlen := n } := rfl
@[simp] theorem State.setRlen_buf (n : Half) : (s.setRlen n).buf = s.buf := rfl
@[simp] theorem State.setRlen_draws (n : Half) : (s.setRlen n).draws = s.draws := rfl
@[simp] theorem State.setRlen_pending (n : Half) : (s.setRlen n).pending = s.pending := rfl
@[simp] theorem State.setRlen_returned (n : Half) : (s.setRlen n).returned = s.returned := rfl
@[simp] theorem State.setRlen_byte (n : Half) (x : Nat) : (s.setRlen n).byte x = s.byte x := rfl

/-! ### setVok -/

@[simp] theorem State.setVok_cfg (b : Bool) : (s.setVok b).cfg = s.cfg := rfl
@[simp] theorem State.setVok_regs (b : Bool) : (s.setVok b).regs = { s.regs with status := { s.regs.status with vok := b } } := rfl
@[simp] theorem State.setVok_buf (b : Bool) : (s.setVok b).buf = s.buf := rfl
@[simp] theorem State.setVok_draws (b : Bool) : (s.setVok b).draws = s.draws := rfl
@[simp] theorem State.setVok_pending (b : Bool) : (s.setVok b).pending = s.pending := rfl
@[simp] theorem State.setVok_returned (b : Bool) : (s.setVok b).returned = s.returned := rfl
@[simp] theorem State.setVok_byte (b : Bool) (x : Nat) : (s.setVok b).byte x = s.byte x := rfl

/-! ### setMism -/

@[simp] theorem State.setMism_cfg (b : Bool) : (s.setMism b).cfg = s.cfg := rfl
@[simp] theorem State.setMism_regs (b : Bool) : (s.setMism b).regs = { s.regs with status := { s.regs.status with mism := b } } := rfl
@[simp] theorem State.setMism_buf (b : Bool) : (s.setMism b).buf = s.buf := rfl
@[simp] theorem State.setMism_draws (b : Bool) : (s.setMism b).draws = s.draws := rfl
@[simp] theorem State.setMism_pending (b : Bool) : (s.setMism b).pending = s.pending := rfl
@[simp] theorem State.setMism_returned (b : Bool) : (s.setMism b).returned = s.returned := rfl
@[simp] theorem State.setMism_byte (b : Bool) (x : Nat) : (s.setMism b).byte x = s.byte x := rfl

/-! ### setClass -/

@[simp] theorem State.setClass_cfg (k : FrameClass) : (s.setClass k).cfg = s.cfg := rfl
@[simp] theorem State.setClass_regs (k : FrameClass) : (s.setClass k).regs = { s.regs with status := { s.regs.status with cls := k } } := rfl
@[simp] theorem State.setClass_buf (k : FrameClass) : (s.setClass k).buf = s.buf := rfl
@[simp] theorem State.setClass_draws (k : FrameClass) : (s.setClass k).draws = s.draws := rfl
@[simp] theorem State.setClass_pending (k : FrameClass) : (s.setClass k).pending = s.pending := rfl
@[simp] theorem State.setClass_returned (k : FrameClass) : (s.setClass k).returned = s.returned := rfl
@[simp] theorem State.setClass_byte (k : FrameClass) (x : Nat) : (s.setClass k).byte x = s.byte x := rfl

/-! ### setReply -/

@[simp] theorem State.setReply_cfg (b : Bool) : (s.setReply b).cfg = s.cfg := rfl
@[simp] theorem State.setReply_regs (b : Bool) : (s.setReply b).regs = { s.regs with status := { s.regs.status with reply := b } } := rfl
@[simp] theorem State.setReply_buf (b : Bool) : (s.setReply b).buf = s.buf := rfl
@[simp] theorem State.setReply_draws (b : Bool) : (s.setReply b).draws = s.draws := rfl
@[simp] theorem State.setReply_pending (b : Bool) : (s.setReply b).pending = s.pending := rfl
@[simp] theorem State.setReply_returned (b : Bool) : (s.setReply b).returned = s.returned := rfl
@[simp] theorem State.setReply_byte (b : Bool) (x : Nat) : (s.setReply b).byte x = s.byte x := rfl

/-! ### setCfgValid -/

@[simp] theorem State.setCfgValid_cfg : s.setCfgValid.cfg = s.cfg := rfl
@[simp] theorem State.setCfgValid_regs : s.setCfgValid.regs = { s.regs with status := { s.regs.status with cfgValid := true } } := rfl
@[simp] theorem State.setCfgValid_buf : s.setCfgValid.buf = s.buf := rfl
@[simp] theorem State.setCfgValid_draws : s.setCfgValid.draws = s.draws := rfl
@[simp] theorem State.setCfgValid_pending : s.setCfgValid.pending = s.pending := rfl
@[simp] theorem State.setCfgValid_returned : s.setCfgValid.returned = s.returned := rfl
@[simp] theorem State.setCfgValid_byte (x : Nat) : s.setCfgValid.byte x = s.byte x := rfl

/-! ### latchIdentity -/

@[simp] theorem State.latchIdentity_cfg : s.latchIdentity.cfg = s.cfg := rfl
@[simp] theorem State.latchIdentity_regs : s.latchIdentity.regs = { s.regs with
      iuid := s.regs.uid, iatqa := s.regs.atqa, isak := s.regs.sak, bcc := bccOf s.regs.uid
      sakcrc := sakCrcOf s.regs.sak } := rfl
@[simp] theorem State.latchIdentity_buf : s.latchIdentity.buf = s.buf := rfl
@[simp] theorem State.latchIdentity_draws : s.latchIdentity.draws = s.draws := rfl
@[simp] theorem State.latchIdentity_pending : s.latchIdentity.pending = s.pending := rfl
@[simp] theorem State.latchIdentity_returned : s.latchIdentity.returned = s.returned := rfl
@[simp] theorem State.latchIdentity_byte (x : Nat) : s.latchIdentity.byte x = s.byte x := rfl

/-! ### raise -/

@[simp] theorem State.raise_cfg (c : FaultCode) : (s.raise c).cfg = s.cfg := rfl
@[simp] theorem State.raise_regs (c : FaultCode) : (s.raise c).regs = { s.regs with status := { s.regs.status with fault := true, fcode := c } } := rfl
@[simp] theorem State.raise_buf (c : FaultCode) : (s.raise c).buf = s.buf := rfl
@[simp] theorem State.raise_draws (c : FaultCode) : (s.raise c).draws = s.draws := rfl
@[simp] theorem State.raise_pending (c : FaultCode) : (s.raise c).pending = s.pending := rfl
@[simp] theorem State.raise_returned (c : FaultCode) : (s.raise c).returned = s.returned := rfl
@[simp] theorem State.raise_byte (c : FaultCode) (x : Nat) : (s.raise c).byte x = s.byte x := rfl

/-! ### complete -/

@[simp] theorem State.complete_cfg : s.complete.cfg = s.cfg := rfl
@[simp] theorem State.complete_regs : s.complete.regs = { s.regs with cmdcnt := s.regs.cmdcnt + 1#32 } := rfl
@[simp] theorem State.complete_buf : s.complete.buf = s.buf := rfl
@[simp] theorem State.complete_draws : s.complete.draws = s.draws := rfl
@[simp] theorem State.complete_pending : s.complete.pending = s.pending := rfl
@[simp] theorem State.complete_returned : s.complete.returned = s.returned := rfl
@[simp] theorem State.complete_byte (x : Nat) : s.complete.byte x = s.byte x := rfl

/-! ### softReset -/

@[simp] theorem State.softReset_cfg : s.softReset.cfg = s.cfg := rfl
@[simp] theorem State.softReset_regs : s.softReset.regs = RegFile.reset := rfl
@[simp] theorem State.softReset_buf : s.softReset.buf = s.buf := rfl
@[simp] theorem State.softReset_draws : s.softReset.draws = s.draws := rfl
@[simp] theorem State.softReset_pending : s.softReset.pending = s.pending := rfl
@[simp] theorem State.softReset_returned : s.softReset.returned = s.returned := rfl
@[simp] theorem State.softReset_byte (x : Nat) : s.softReset.byte x = s.byte x := rfl

/-! ### hardReset -/

@[simp] theorem State.hardReset_cfg : s.hardReset.cfg = s.cfg := rfl
@[simp] theorem State.hardReset_regs : s.hardReset.regs = RegFile.reset := rfl
@[simp] theorem State.hardReset_buf : s.hardReset.buf = [] := rfl
@[simp] theorem State.hardReset_draws : s.hardReset.draws = s.draws + 1 := rfl
@[simp] theorem State.hardReset_pending : s.hardReset.pending = s.pending := rfl
@[simp] theorem State.hardReset_returned : s.hardReset.returned = s.returned := rfl

/-! ### memWrite -/

@[simp] theorem State.memWrite_cfg (a : Nat) (bs : List Byte) : (s.memWrite a bs).cfg = s.cfg := rfl
@[simp] theorem State.memWrite_regs (a : Nat) (bs : List Byte) : (s.memWrite a bs).regs = s.regs := rfl
@[simp] theorem State.memWrite_buf (a : Nat) (bs : List Byte) : (s.memWrite a bs).buf = Memory.storeBytes s.buf a bs := rfl
@[simp] theorem State.memWrite_draws (a : Nat) (bs : List Byte) : (s.memWrite a bs).draws = s.draws := rfl
@[simp] theorem State.memWrite_pending (a : Nat) (bs : List Byte) : (s.memWrite a bs).pending = s.pending := rfl
@[simp] theorem State.memWrite_returned (a : Nat) (bs : List Byte) : (s.memWrite a bs).returned = s.returned := rfl

/-! ### putBits -/

@[simp] theorem State.putBits_cfg (a m : Nat) (f : Nat → Bool) : (s.putBits a m f).cfg = s.cfg := rfl
@[simp] theorem State.putBits_regs (a m : Nat) (f : Nat → Bool) : (s.putBits a m f).regs = s.regs := rfl
@[simp] theorem State.putBits_buf (a m : Nat) (f : Nat → Bool) : (s.putBits a m f).buf = Memory.storeBytes s.buf a (packBits m f) := rfl
@[simp] theorem State.putBits_draws (a m : Nat) (f : Nat → Bool) : (s.putBits a m f).draws = s.draws := rfl
@[simp] theorem State.putBits_pending (a m : Nat) (f : Nat → Bool) : (s.putBits a m f).pending = s.pending := rfl
@[simp] theorem State.putBits_returned (a m : Nat) (f : Nat → Bool) : (s.putBits a m f).returned = s.returned := rfl

/-! ### answer -/

@[simp] theorem State.answer_cfg (v : Returned) : (s.answer v).cfg = s.cfg := rfl
@[simp] theorem State.answer_regs (v : Returned) : (s.answer v).regs = s.regs := rfl
@[simp] theorem State.answer_buf (v : Returned) : (s.answer v).buf = s.buf := rfl
@[simp] theorem State.answer_draws (v : Returned) : (s.answer v).draws = s.draws := rfl
@[simp] theorem State.answer_pending (v : Returned) : (s.answer v).pending = s.pending := rfl
@[simp] theorem State.answer_returned (v : Returned) : (s.answer v).returned = s.returned ++ [v] := rfl
@[simp] theorem State.answer_byte (v : Returned) (x : Nat) : (s.answer v).byte x = s.byte x := rfl

/-! ### reset -/

@[simp] theorem State.resetWith_regs (c : Config) : (State.resetWith c).regs = RegFile.reset := rfl
@[simp] theorem State.resetWith_cfg (c : Config) : (State.resetWith c).cfg = c := rfl
@[simp] theorem State.resetWith_buf (c : Config) : (State.resetWith c).buf = [] := rfl
@[simp] theorem State.resetWith_pending (c : Config) : (State.resetWith c).pending = [] := rfl

end Sys2Proof.Machine
end

