-- ==== Sys2Proof/Laws/Memory.lean ====
section
/-! SUPPORT. BUF: read after write, and every memory operation keeps the canonical form. -/

namespace Sys2Proof.Machine

theorem Memory.byteAt?_store (m : Memory) (a : Nat) (b : Byte) (x : Nat) :
    Memory.byteAt? (Memory.store m a b) x = if x = a then some b else Memory.byteAt? m x := by
  induction m with
  | nil => simp [Memory.store, Memory.byteAt?, eq_comm]
  | cons e rest ih =>
    obtain ⟨k, c⟩ := e
    unfold Memory.store
    split_ifs with h1 h2 h3 <;> simp only [Memory.byteAt?, ih] <;> split_ifs <;> first | rfl | omega

/-- Everything `storeBytes` does to what BUF reads as. -/
theorem Memory.byteAt?_storeBytes (bs : List Byte) :
    ∀ (m : Memory) (a x : Nat), Memory.byteAt? (Memory.storeBytes m a bs) x =
      if a ≤ x ∧ x < a + bs.length then some (bs.getD (x - a) 0#8) else Memory.byteAt? m x := by
  induction bs with
  | nil => intro m a x; simp [Memory.storeBytes]
  | cons b bs ih =>
    intro m a x
    simp only [Memory.storeBytes, ih, Memory.byteAt?_store, List.length_cons]
    by_cases h : x = a
    · subst h; simp
    · by_cases h2 : a + 1 ≤ x ∧ x < a + 1 + bs.length
      · obtain ⟨d, rfl⟩ : ∃ d, x = a + 1 + d := ⟨x - (a + 1), by omega⟩
        rw [if_pos h2, if_pos (by omega)]
        have e1 : a + 1 + d - (a + 1) = d := by omega
        have e2 : a + 1 + d - a = d + 1 := by omega
        simp [e1, e2]
      · rw [if_neg h2, if_neg h, if_neg (by omega)]

theorem State.byte_eq (s : State) (x : Nat) :
    s.byte x = (Memory.byteAt? s.buf x).getD (Config.powerOnByte s.draws x) := rfl

/-- What every BUF address reads as after `MemWrite`. -/
theorem State.memWrite_byte (s : State) (a : Nat) (bs : List Byte) (x : Nat) :
    (s.memWrite a bs).byte x = if a ≤ x ∧ x < a + bs.length then bs.getD (x - a) 0#8 else s.byte x := by
  simp only [State.byte_eq, State.memWrite_buf, State.memWrite_draws, Memory.byteAt?_storeBytes]
  split_ifs <;> simp

theorem State.memWrite_byte_add (s : State) (a : Nat) (bs : List Byte) (k : Nat) (h : k < bs.length) :
    (s.memWrite a bs).byte (a + k) = bs.getD k 0#8 := by
  rw [State.memWrite_byte, if_pos (by omega)]; simp

theorem State.memWrite_byte_outside (s : State) (a : Nat) (bs : List Byte) (x : Nat)
    (h : x < a ∨ a + bs.length ≤ x) : (s.memWrite a bs).byte x = s.byte x := by
  rw [State.memWrite_byte, if_neg (by omega)]

@[simp] theorem State.memRead_length (s : State) (a n : Nat) : (s.memRead a n).length = n := by
  simp [State.memRead]

theorem State.memRead_getD (s : State) (a n k : Nat) (d : Byte) (h : k < n) :
    (s.memRead a n).getD k d = s.byte (a + k) := by
  simp [State.memRead, List.getD_eq_getElem?_getD, h]

/-- Reading back what was just written. -/
theorem State.memWrite_memRead (s : State) (a : Nat) (bs : List Byte) :
    (s.memWrite a bs).memRead a bs.length = bs := by
  apply List.ext_getElem <;> simp [State.memRead, State.memWrite_byte]
  intro i h1
  simp [h1]

theorem Memory.wfFrom_mono {size lo lo' : Nat} (h : lo' ≤ lo) {m : Memory} (hm : Memory.wfFrom size lo m = true) :
    Memory.wfFrom size lo' m = true := by
  cases m with
  | nil => rfl
  | cons e rest =>
    obtain ⟨k, c⟩ := e
    simp only [Memory.wfFrom, Bool.and_eq_true, decide_eq_true_eq] at hm ⊢
    exact ⟨⟨by omega, hm.1.2⟩, hm.2⟩

theorem Memory.wfFrom_store {size : Nat} {a : Nat} (b : Byte) (ha : a < size) :
    ∀ {m : Memory} {lo : Nat}, lo ≤ a → Memory.wfFrom size lo m = true →
      Memory.wfFrom size lo (Memory.store m a b) = true := by
  intro m
  induction m with
  | nil => intro lo hlo _; simp [Memory.store, Memory.wfFrom, hlo, ha]
  | cons e rest ih =>
    obtain ⟨k, c⟩ := e
    intro lo hlo hm
    simp only [Memory.wfFrom, Bool.and_eq_true, decide_eq_true_eq] at hm
    unfold Memory.store
    split_ifs with h1 h2
    · simp [Memory.wfFrom, hlo, ha, hm.1.2, hm.2]; omega
    · subst h2; simp [Memory.wfFrom, hm.1.1, hm.1.2, hm.2]
    · simp [Memory.wfFrom, hm.1.1, hm.1.2, ih (by omega : k + 1 ≤ a) hm.2]

/-- A store inside BUF keeps the canonical form. -/
theorem Memory.wf_store {size a : Nat} {m : Memory} (b : Byte) (ha : a < size) (hm : Memory.wf size m = true) :
    Memory.wf size (Memory.store m a b) = true := Memory.wfFrom_store b ha (Nat.zero_le a) hm

/-- A write whose range fits BUF keeps the canonical form. -/
theorem Memory.wf_storeBytes {size : Nat} : ∀ (bs : List Byte) (m : Memory) (a : Nat),
    bs.length = 0 ∨ a + bs.length ≤ size → Memory.wf size m = true →
      Memory.wf size (Memory.storeBytes m a bs) = true := by
  intro bs
  induction bs with
  | nil => intro m a _ hm; exact hm
  | cons b bs ih =>
    intro m a h hm
    simp only [List.length_cons] at h
    exact ih _ _ (by omega) (Memory.wf_store b (by omega) hm)

@[simp] theorem Memory.wf_nil (size : Nat) : Memory.wf size [] = true := rfl

end Sys2Proof.Machine
end

