-- ==== Sys2Proof/Laws/Bits.lean ====
section
/-! SUPPORT. Bits: BitBuffers read and written, byte lanes, and the two ROMs against the definitions of their entries. -/

namespace Sys2Proof.Machine

theorem byteOfBits_getLsbD (g : Nat → Bool) (j : Nat) : (byteOfBits g).getLsbD j = (decide (j < 8) && g j) := by
  rcases j with _ | _ | _ | _ | _ | _ | _ | _ | j <;> simp [byteOfBits]

@[simp] theorem packBits_length (m : Nat) (f : Nat → Bool) : (packBits m f).length = nbytes m := by simp [packBits]

theorem packBits_getD (m : Nat) (f : Nat → Bool) (k j : Nat) (hk : k < nbytes m) (hj : j < 8) :
    ((packBits m f).getD k 0#8).getLsbD j = (decide (8 * k + j < m) && f (8 * k + j)) := by
  have e : (packBits m f).getD k 0#8 = byteOfBits fun j => decide (8 * k + j < m) && f (8 * k + j) := by
    simp [packBits, List.getD_eq_getElem?_getD, hk]
  rw [e, byteOfBits_getLsbD]; simp [hj]

@[simp] theorem State.getBit_eq_bitAt (s : State) (a i : Nat) : s.getBit a i = s.bitAt a i := rfl

theorem State.bitAt_congr {s t : State} {a i : Nat} (h : t.byte (a + i / 8) = s.byte (a + i / 8)) :
    t.bitAt a i = s.bitAt a i := by simp [State.bitAt, h]

/-- What every bit of the written BitBuffer reads as after `PutBits`, pad bits included. -/
theorem State.putBits_bitAt (s : State) (a m : Nat) (f : Nat → Bool) (i : Nat) (hi : i < 8 * nbytes m) :
    (s.putBits a m f).bitAt a i = (decide (i < m) && f i) := by
  have hk : i / 8 < nbytes m := by omega
  have e : 8 * (i / 8) + i % 8 = i := by omega
  unfold State.bitAt State.putBits
  rw [State.memWrite_byte_add _ _ _ _ (by simpa using hk), packBits_getD _ _ _ _ hk (by omega), e]

/-- `PutBits` leaves every byte outside its BitBuffer alone. -/
theorem State.putBits_byte_outside (s : State) (a m : Nat) (f : Nat → Bool) (x : Nat)
    (h : x < a ∨ a + nbytes m ≤ x) : (s.putBits a m f).byte x = s.byte x :=
  State.memWrite_byte_outside _ _ _ _ (by simpa using h)

theorem lane_eq {w : Nat} (x : BitVec w) (k : Nat) : lane x k = x.extractLsb' (8 * k) 8 := rfl

theorem lane_getLsbD {w : Nat} (x : BitVec w) (k j : Nat) :
    (lane x k).getLsbD j = (decide (j < 8) && x.getLsbD (8 * k + j)) := by
  simp [lane_eq, BitVec.getLsbD_extractLsb']

/-- Bit i of a concatenation, whatever the width is written as. -/
theorem append_getLsbD {v w : Nat} (x : BitVec v) (y : BitVec w) (i : Nat) :
    (x ++ y : BitVec (v + w)).getLsbD i = if i < w then y.getLsbD i else x.getLsbD (i - w) := by
  rw [BitVec.getLsbD_append]

theorem State.opa_getLsbD (s : State) (i : Nat) :
    s.opa.getLsbD i = if i < 32 then s.regs.opaLo.getLsbD i else s.regs.opaHi.getLsbD (i - 32) :=
  append_getLsbD _ _ _

theorem State.opaByte_eq (s : State) : s.opaByte = s.regs.opaLo.extractLsb' 0 8 := by
  apply BitVec.eq_of_getLsbD_eq
  intro i hi
  simp only [State.opaByte, BitVec.getLsbD_extractLsb', State.opa_getLsbD]
  simp [show i < 32 by omega]

theorem State.opaWord_eq (s : State) : s.opaWord = s.regs.opaLo := by
  apply BitVec.eq_of_getLsbD_eq
  intro i hi
  simp only [State.opaWord, BitVec.getLsbD_extractLsb', State.opa_getLsbD]
  simp [hi]

/-- Bit i of a concatenation whose lower part is one more lane of a list of lanes. -/
theorem lane_cons_getLsbD {v : Nat} (x : BitVec v) (b : Byte) (bs : List Byte) (i : Nat)
    (h : ∀ j, x.getLsbD j = (bs.getD (j / 8) 0#8).getLsbD (j % 8)) :
    (x ++ b : BitVec (v + 8)).getLsbD i = ((b :: bs).getD (i / 8) 0#8).getLsbD (i % 8) := by
  rw [append_getLsbD]
  split_ifs with hi
  · simp [show i / 8 = 0 by omega, show i % 8 = i by omega]
  · rw [h, show i / 8 = (i - 8) / 8 + 1 by omega, show (i - 8) % 8 = i % 8 by omega]; simp

theorem lane_one_getLsbD (b : Byte) (j : Nat) : b.getLsbD j = (([b] : List Byte).getD (j / 8) 0#8).getLsbD (j % 8) := by
  by_cases hj : j < 8
  · simp [show j / 8 = 0 by omega, show j % 8 = j by omega]
  · obtain ⟨q, hq⟩ : ∃ q, j / 8 = q + 1 := ⟨j / 8 - 1, by omega⟩
    rw [BitVec.getLsbD_of_ge _ _ (by omega : 8 ≤ j), hq]; simp

/-- Bit i of four lanes written high to low is bit i mod 8 of lane i / 8. -/
theorem lanes4_getLsbD (b3 b2 b1 b0 : Byte) (i : Nat) :
    (b3 ++ b2 ++ b1 ++ b0 : BitVec 32).getLsbD i = (([b0, b1, b2, b3] : List Byte).getD (i / 8) 0#8).getLsbD (i % 8) :=
  lane_cons_getLsbD _ _ _ _ (lane_cons_getLsbD _ _ _ · (lane_cons_getLsbD _ _ _ · (lane_one_getLsbD b3)))

/-- Bit i of eight lanes written high to low is bit i mod 8 of lane i / 8. -/
theorem lanes8_getLsbD (b7 b6 b5 b4 b3 b2 b1 b0 : Byte) (i : Nat) :
    (b7 ++ b6 ++ b5 ++ b4 ++ b3 ++ b2 ++ b1 ++ b0 : BitVec 64).getLsbD i =
      (([b0, b1, b2, b3, b4, b5, b6, b7] : List Byte).getD (i / 8) 0#8).getLsbD (i % 8) :=
  lane_cons_getLsbD _ _ _ _ (lane_cons_getLsbD _ _ _ · (lane_cons_getLsbD _ _ _ · (lane_cons_getLsbD _ _ _ ·
    (lane_cons_getLsbD _ _ _ · (lane_cons_getLsbD _ _ _ · (lane_cons_getLsbD _ _ _ · (lane_one_getLsbD b7)))))))

set_option maxRecDepth 100000 in
/-- The parity ROM holds the odd parity of each byte (41_parity.md R120). -/
theorem par_eq : ∀ b : Byte, par b = if setBits b % 2 = 0 then 1#1 else 0#1 := by decide

set_option maxRecDepth 100000 in
/-- The mirror ROM holds the bit-reversed byte (42_mirror_swap.md R140). -/
theorem mir_bits : ∀ b : Byte, ∀ j : Fin 8, (mir b).getLsbD j = b.getLsbD (7 - j) := by decide

theorem mir_getLsbD (b : Byte) (j : Nat) : (mir b).getLsbD j = (decide (j < 8) && b.getLsbD (7 - j)) := by
  by_cases h : j < 8
  · simpa [h] using mir_bits b ⟨j, h⟩
  · simp [h, BitVec.getLsbD_of_ge _ _ (by omega : 8 ≤ j)]

/-- The mirror ROM is an involution (42_mirror_swap.md R142). -/
theorem mir_mir (b : Byte) : mir (mir b) = b := by
  ext j hj
  rw [← BitVec.getLsbD_eq_getElem, ← BitVec.getLsbD_eq_getElem, mir_getLsbD, mir_getLsbD]
  simp [hj, show 7 - j < 8 by omega, show 7 - (7 - j) = j by omega]

theorem mir32_getLsbD (x : Word) (i : Nat) :
    (mir32 x).getLsbD i = (decide (i < 32) && x.getLsbD (8 * (i / 8) + (7 - i % 8))) := by
  rw [mir32, lanes4_getLsbD]
  by_cases hi : i < 32
  · obtain h | h | h | h : i / 8 = 0 ∨ i / 8 = 1 ∨ i / 8 = 2 ∨ i / 8 = 3 := by omega
    all_goals simp [-BitVec.getLsbD_eq_getElem, h, hi, mir_getLsbD, lane_getLsbD, show i % 8 < 8 by omega, show 7 - i % 8 < 8 by omega]
  · obtain ⟨q, hq⟩ : ∃ q, i / 8 = q + 4 := ⟨i / 8 - 4, by omega⟩
    simp [hi, hq]

theorem mir64_getLsbD (x : DWord) (i : Nat) :
    (mir64 x).getLsbD i = (decide (i < 64) && x.getLsbD (8 * (i / 8) + (7 - i % 8))) := by
  rw [mir64, lanes8_getLsbD]
  by_cases hi : i < 64
  · obtain h | h | h | h | h | h | h | h : i / 8 = 0 ∨ i / 8 = 1 ∨ i / 8 = 2 ∨ i / 8 = 3 ∨ i / 8 = 4 ∨ i / 8 = 5
      ∨ i / 8 = 6 ∨ i / 8 = 7 := by omega
    all_goals simp [-BitVec.getLsbD_eq_getElem, h, hi, mir_getLsbD, lane_getLsbD, show i % 8 < 8 by omega, show 7 - i % 8 < 8 by omega]
  · obtain ⟨q, hq⟩ : ∃ q, i / 8 = q + 8 := ⟨i / 8 - 8, by omega⟩
    simp [hi, hq]

theorem swap32_getLsbD (x : Word) (i : Nat) :
    (swap32 x).getLsbD i = (decide (i < 32) && x.getLsbD (8 * (3 - i / 8) + i % 8)) := by
  rw [swap32, lanes4_getLsbD]
  by_cases hi : i < 32
  · obtain h | h | h | h : i / 8 = 0 ∨ i / 8 = 1 ∨ i / 8 = 2 ∨ i / 8 = 3 := by omega
    all_goals simp [-BitVec.getLsbD_eq_getElem, h, hi, lane_getLsbD, show i % 8 < 8 by omega]
  · obtain ⟨q, hq⟩ : ∃ q, i / 8 = q + 4 := ⟨i / 8 - 4, by omega⟩
    simp [hi, hq]

theorem swap64_getLsbD (x : DWord) (i : Nat) :
    (swap64 x).getLsbD i = (decide (i < 64) && x.getLsbD (8 * (7 - i / 8) + i % 8)) := by
  rw [swap64, lanes8_getLsbD]
  by_cases hi : i < 64
  · obtain h | h | h | h | h | h | h | h : i / 8 = 0 ∨ i / 8 = 1 ∨ i / 8 = 2 ∨ i / 8 = 3 ∨ i / 8 = 4 ∨ i / 8 = 5
      ∨ i / 8 = 6 ∨ i / 8 = 7 := by omega
    all_goals simp [-BitVec.getLsbD_eq_getElem, h, hi, lane_getLsbD, show i % 8 < 8 by omega]
  · obtain ⟨q, hq⟩ : ∃ q, i / 8 = q + 8 := ⟨i / 8 - 8, by omega⟩
    simp [hi, hq]

theorem State.littleEndian32_getLsbD (s : State) (a i : Nat) :
    (s.littleEndian32 a).getLsbD i = (decide (i < 32) && (s.byte (a + i / 8)).getLsbD (i % 8)) := by
  rw [State.littleEndian32, lanes4_getLsbD]
  by_cases hi : i < 32
  · obtain h | h | h | h : i / 8 = 0 ∨ i / 8 = 1 ∨ i / 8 = 2 ∨ i / 8 = 3 := by omega
    all_goals simp [h, hi]
  · obtain ⟨q, hq⟩ : ∃ q, i / 8 = q + 4 := ⟨i / 8 - 4, by omega⟩
    simp [hi, hq]

theorem State.littleEndian64_getLsbD (s : State) (a i : Nat) :
    (s.littleEndian64 a).getLsbD i = (decide (i < 64) && (s.byte (a + i / 8)).getLsbD (i % 8)) := by
  have h : (s.littleEndian64 a).getLsbD i =
      if i < 32 then (s.littleEndian32 a).getLsbD i else (s.littleEndian32 (a + 4)).getLsbD (i - 32) :=
    append_getLsbD _ _ _
  rw [h]
  split_ifs with hi
  · simp [-BitVec.getLsbD_eq_getElem, State.littleEndian32_getLsbD, hi, show i < 64 by omega]
  · rw [State.littleEndian32_getLsbD]
    by_cases h2 : i < 64
    · simp [h2, show i - 32 < 32 by omega, show a + 4 + (i - 32) / 8 = a + i / 8 by omega,
        show (i - 32) % 8 = i % 8 by omega]
    · simp [h2, show ¬ i - 32 < 32 by omega]

end Sys2Proof.Machine
end

