-- ==== Sys2Proof/Laws/Ops.lean ====
section
/-! SUPPORT. The frame of a command and its range checks, said once. -/

namespace Sys2Proof.Machine

@[simp] theorem validRange_iff (c : Config) (a k : Nat) : validRange c a k = true ↔ InBuf c a k := by
  simp [validRange, InBuf]

theorem validRange_eq_false_iff (c : Config) (a k : Nat) : validRange c a k = false ↔ ¬ InBuf c a k := by
  rw [← validRange_iff, Bool.not_eq_true]

@[simp] theorem firstFailure_nil : firstFailure [] = none := rfl

theorem firstFailure_cons (ok : Bool) (c : FaultCode) (rest : List Check) :
    firstFailure ((ok, c) :: rest) = if ok then firstFailure rest else some c := rfl

/-- A check list fails with the code of one of its failing checks. -/
theorem firstFailure_mem : ∀ {cs : List Check} {c : FaultCode}, firstFailure cs = some c → (false, c) ∈ cs
  | [], _, h => by simp at h
  | (true, d) :: rest, c, h => by
    rw [firstFailure_cons] at h; simp at h
    exact List.mem_cons_of_mem _ (firstFailure_mem h)
  | (false, d) :: rest, c, h => by
    rw [firstFailure_cons] at h; simp at h; simp [h]

/-- No check fails exactly when all hold. -/
theorem firstFailure_eq_none : ∀ {cs : List Check}, firstFailure cs = none ↔ ∀ p ∈ cs, p.1 = true
  | [] => by simp
  | (true, d) :: rest => by rw [firstFailure_cons]; simp [firstFailure_eq_none (cs := rest)]
  | (false, d) :: rest => by rw [firstFailure_cons]; simp

/-- Everything a command's frame can do: raise the fault of a failing check, or complete. -/
theorem runCommand_cases (cs : List Check) (e s : State) :
    (∃ c, firstFailure cs = some c ∧ runCommand cs e s = .next (s.raise c)) ∨
      (firstFailure cs = none ∧ runCommand cs e s = .next e.complete) := by
  unfold runCommand
  cases h : firstFailure cs with
  | none => exact .inr ⟨rfl, rfl⟩
  | some c => exact .inl ⟨c, rfl, rfl⟩

theorem runCommand_pass {cs : List Check} (e s : State) (h : ∀ p ∈ cs, p.1 = true) :
    runCommand cs e s = .next e.complete := by
  simp [runCommand, firstFailure_eq_none.2 h]

@[simp] theorem runCommand_none (e s : State) : runCommand [] e s = .next e.complete := rfl

theorem runCommand_ok (c : FaultCode) (cs : List Check) (e s : State) :
    runCommand ((true, c) :: cs) e s = runCommand cs e s := rfl

theorem runCommand_fail (c : FaultCode) (cs : List Check) (e s : State) :
    runCommand ((false, c) :: cs) e s = .next (s.raise c) := rfl

/-- `raise` is the fault outcome claims speak of. -/
theorem faultsWith_raise (s : State) (c : FaultCode) : FaultsWith (.next (s.raise c)) s c := rfl

/-- A list of RANGE checks none of which may fail: it raises RANGE or passes. -/
theorem runCommand_range {cs : List Check} (e s : State) (hc : ∀ p ∈ cs, p.2 = .range)
    (h : ¬ ∀ p ∈ cs, p.1 = true) : FaultsWith (runCommand cs e s) s .range := by
  obtain ⟨c, h1, h2⟩ | ⟨h1, -⟩ := runCommand_cases cs e s
  · have := hc _ (firstFailure_mem h1)
    simp only at this
    subst this
    rw [h2]; rfl
  · exact absurd (firstFailure_eq_none.1 h1) h

end Sys2Proof.Machine
end

