-- ==== Sys2Proof/Laws/Commands.lean ====
section
/-! SUPPORT. Every command as its checks and its effect, so that a rule over all commands unfolds `exec` once. -/

namespace Sys2Proof.Machine

/-- The checks of each command, in order. -/
def commandChecks (i : Instr) (s : State) : List Check :=
  match i with
  | .nop | .par | .mir8 | .mir32 | .mir64 | .cfg | .classify | .bpack => []
  | .parbuf =>
    [(validRange s.cfg s.srcAddr s.count, .range), (validRange s.cfg s.padrAddr s.count, .range)]
  | .parchk =>
    [(validRange s.cfg s.srcAddr s.count, .range), (validRange s.cfg s.padrAddr s.count, .range),
     (validRange s.cfg s.dstAddr s.count, .range)]
  | .mirbuf => [(validRange s.cfg s.srcAddr s.count, .range)]
  | .swp32 => [(validRange s.cfg s.srcAddr 4, .range)]
  | .swp64 => [(validRange s.cfg s.srcAddr 8, .range)]
  | .crca => [(validRange s.cfg s.srcAddr s.count, .range), (validRange s.cfg s.dstAddr 2, .range)]
  | .crcv => [(decide (2 ≤ s.count), .badlen), (validRange s.cfg s.srcAddr s.count, .range)]
  | .handle =>
    [(s.regs.status.cfgValid, .nocfg), (validRange s.cfg s.dstAddr (handleReply s).length, .range)]
  | .bshr =>
    [(validRange s.cfg s.srcAddr (nbytes s.count), .range),
     (validRange s.cfg s.dstAddr (nbytes (bshrCount s)), .range)]
  | .bshl =>
    [(decide (bshlCount s ≤ Config.maxBitCount), .badlen),
     (validRange s.cfg s.srcAddr (nbytes s.count), .range),
     (validRange s.cfg s.dstAddr (nbytes (bshlCount s)), .range)]
  | .wrap =>
    [(decide (wrapCount s ≤ Config.maxBitCount), .badlen),
     (validRange s.cfg s.srcAddr (nbytes s.count), .range),
     (validRange s.cfg s.padrAddr (s.count / 8), .range),
     (validRange s.cfg s.dstAddr (nbytes (wrapCount s)), .range)]
  | .unwrap =>
    [(decide (s.count % 9 ≠ 8), .badlen),
     (validRange s.cfg s.srcAddr (nbytes s.count), .range),
     (validRange s.cfg s.dstAddr (nbytes (unwrapCount s)), .range),
     (validRange s.cfg s.padrAddr (s.count / 9), .range)]

/-- The writes of each command, before CMDCNT. -/
def commandEffect (i : Instr) (s : State) : State :=
  match i with
  | .nop => s
  | .par => s.setRes ((par s.opaByte).setWidth 64)
  | .parbuf => s.memWrite s.padrAddr (parbufSlots s)
  | .parchk =>
    ((s.memWrite s.dstAddr ((parchkFlags s).map fun m => slotOf (BitVec.ofBool m))).setRes
      (BitVec.ofNat 64 (parchkCount s))).setMism (decide (parchkCount s ≠ 0))
  | .mir8 => s.setRes ((mir s.opaByte).setWidth 64)
  | .mirbuf => s.memWrite s.srcAddr ((s.memRead s.srcAddr s.count).map mir)
  | .mir32 => s.setRes ((mir32 s.opaWord).setWidth 64)
  | .mir64 => s.setRes (mir64 s.opa)
  | .swp32 => s.setRes ((swap32 (s.littleEndian32 s.srcAddr)).setWidth 64)
  | .swp64 => s.setRes (swap64 (s.littleEndian64 s.srcAddr))
  | .crca =>
    ((s.memWrite s.dstAddr (crcBytes (crcA (s.memRead s.srcAddr s.count)))).setCrc
      (crcA (s.memRead s.srcAddr s.count))).setRes ((crcA (s.memRead s.srcAddr s.count)).setWidth 64)
  | .crcv => ((s.setCrc (crcvValue s)).setRes ((crcvValue s).setWidth 64)).setVok (crcvMatches s)
  | .cfg => s.latchIdentity.setCfgValid
  | .classify => (s.setClass (classify s.count)).setRes ((classify s.count).code.setWidth 64)
  | .handle =>
    (((s.memWrite s.dstAddr (handleReply s)).setRlen (BitVec.ofNat 16 (8 * (handleReply s).length))).setClass
      (classify s.count)).setReply (decide (classify s.count ≠ .unknown))
  | .bpack => s.setRes ((packGeometry s.count).setWidth 64)
  | .bshr =>
    (s.putBits s.dstAddr (bshrCount s) fun i => s.getBit s.srcAddr (i + s.shift)).setRes
      (BitVec.ofNat 64 (bshrCount s))
  | .bshl =>
    (s.putBits s.dstAddr (bshlCount s) fun i =>
      if i < s.shift then false else s.getBit s.srcAddr (i - s.shift)).setRes (BitVec.ofNat 64 (bshlCount s))
  | .wrap => (s.putBits s.dstAddr (wrapCount s) (wrapBit s)).setRes (BitVec.ofNat 64 (wrapCount s))
  | .unwrap =>
    ((s.putBits s.dstAddr (unwrapCount s) fun i => s.getBit s.srcAddr (9 * (i / 8) + i % 8)).memWrite
      s.padrAddr (unwrapSlots s)).setRes (BitVec.ofNat 64 (unwrapCount s))

/-- Every command is its checks, then its effect, then CMDCNT. -/
theorem exec_eq_runCommand (i : Instr) (s : State) :
    exec i s = runCommand (commandChecks i s) (commandEffect i s) s := by cases i <;> rfl

/-- Everything a command can do: raise the fault of its first failing check, or complete its effect. -/
theorem exec_cases (i : Instr) (s : State) :
    (∃ c, firstFailure (commandChecks i s) = some c ∧ exec i s = .next (s.raise c)) ∨
      (firstFailure (commandChecks i s) = none ∧ exec i s = .next (commandEffect i s).complete) := by
  rw [exec_eq_runCommand]; exact runCommand_cases _ _ _

/-- A command whose checks hold completes. -/
theorem exec_pass (i : Instr) (s : State) (h : ∀ p ∈ commandChecks i s, p.1 = true) :
    exec i s = .next (commandEffect i s).complete := by
  rw [exec_eq_runCommand]; exact runCommand_pass _ _ h

/-- A command with a failing check raises the fault of the first. -/
theorem exec_fault {i : Instr} {s : State} {c : FaultCode} (h : firstFailure (commandChecks i s) = some c) :
    FaultsWith (exec i s) s c := by
  obtain ⟨c', hc, hx⟩ | ⟨h', -⟩ := exec_cases i s
  · rw [h] at hc; cases hc; rw [hx]; rfl
  · rw [h] at h'; cases h'

/-- A command always has a next state. -/
theorem exec_next (i : Instr) (s : State) : ∃ t, exec i s = .next t := by
  obtain ⟨c, -, h⟩ | ⟨-, h⟩ := exec_cases i s <;> exact ⟨_, h⟩

/-- No effect touches the parameter, the draw or the host's side. -/
theorem commandEffect_sameOutside (i : Instr) (s : State) : SameOutside s (commandEffect i s) := by
  cases i <;> exact ⟨rfl, rfl, rfl, rfl⟩

/-- No effect writes a register the host owns. -/
theorem commandEffect_sameHostRegs (i : Instr) (s : State) : SameHostRegs s.regs (commandEffect i s).regs := by
  cases i <;> exact ⟨rfl, rfl, rfl, rfl, rfl, rfl, rfl, rfl, rfl, rfl⟩

/-- No effect writes FAULT, FCODE or CMDCNT. -/
theorem commandEffect_fault (i : Instr) (s : State) :
    (commandEffect i s).regs.status.fault = s.regs.status.fault
      ∧ (commandEffect i s).regs.status.fcode = s.regs.status.fcode
      ∧ (commandEffect i s).regs.cmdcnt = s.regs.cmdcnt := by
  cases i <;> exact ⟨rfl, rfl, rfl⟩

/-! ### Operands as registers -/

theorem State.srcAddr_eq (s : State) : s.srcAddr = s.regs.src.toNat := rfl
theorem State.dstAddr_eq (s : State) : s.dstAddr = s.regs.dst.toNat := rfl
theorem State.padrAddr_eq (s : State) : s.padrAddr = s.regs.padr.toNat := rfl
theorem State.count_eq (s : State) : s.count = s.regs.len.toNat := rfl
theorem State.shift_eq (s : State) : s.shift = s.regs.shamt.toNat := rfl
theorem nbytes_eq (n : Nat) : nbytes n = (n + 7) / 8 := rfl
theorem State.bytesAt_eq_memRead (s : State) (a n : Nat) : s.bytesAt a n = s.memRead a n := rfl
theorem bshlCount_eq (s : State) : bshlCount s = s.regs.len.toNat + s.regs.shamt.toNat := rfl
theorem wrapCount_eq (s : State) : wrapCount s = s.regs.len.toNat + s.regs.len.toNat / 8 := rfl
theorem unwrapCount_eq (s : State) : unwrapCount s = 8 * (s.regs.len.toNat / 9) + s.regs.len.toNat % 9 := rfl

theorem bshrCount_eq (s : State) : bshrCount s = s.regs.len.toNat - s.regs.shamt.toNat := by
  show (if s.regs.shamt.toNat ≤ s.regs.len.toNat then s.regs.len.toNat - s.regs.shamt.toNat else 0) = _
  split_ifs <;> omega

theorem handleReply_length (s : State) : (handleReply s).length = replyBytes s.regs.len.toNat := by
  unfold handleReply classify replyBytes
  rw [State.count_eq]
  by_cases h1 : s.regs.len.toNat = 7
  · simp [h1, replyOf]
  by_cases h2 : s.regs.len.toNat = 16
  · simp [h2, replyOf]
  by_cases h3 : s.regs.len.toNat = 72
  · simp [h3, replyOf]
  · simp [h1, h2, h3, replyOf]

/-- The RANGE checks of a command hold exactly when its ranges fit BUF (60_exceptions.md R235). -/
theorem rangeChecks_iff (i : Instr) (s : State) :
    (∀ p ∈ commandChecks i s, p.2 = .range → p.1 = true) ↔ rangesFit i s := by
  cases i <;>
    simp [commandChecks, rangesFit, inputRanges, outputRanges, handleReply_length, nbytes_eq, bshrCount_eq,
      bshlCount_eq, wrapCount_eq, unwrapCount_eq, InBuf]
  all_goals tauto

end Sys2Proof.Machine
end

