-- ==== Sys2Proof/Laws/Crc.lean ====
section
/-! SUPPORT. The CRC register: one shift loses nothing, so one step tells bytes and register values apart. -/

namespace Sys2Proof.Machine

theorem crcA_append (s : List Byte) (b : Byte) : crcA (s ++ [b]) = crcStep (crcA s) b := by simp [crcA]

@[simp] theorem crcA_nil : crcA [] = 0x6363#16 := rfl

/-- Bit i of one shift of the register (43_crc_a.md R160). -/
theorem crcShift_getLsbD (c : Half) (i : Nat) :
    (crcShift c).getLsbD i = (c.getLsbD (i + 1) ^^ (c.getLsbD 0 && Config.crcPoly.getLsbD i)) := by
  unfold crcShift
  cases h : c.getLsbD 0 <;> simp [-BitVec.getLsbD_eq_getElem, BitVec.getLsbD_xor, BitVec.getLsbD_ushiftRight, Nat.add_comm]

/-- One shift is injective: bit 15 of the result tells whether bit 0 was set. -/
theorem crcShift_injective {c d : Half} (h : crcShift c = crcShift d) : c = d := by
  have key : ∀ i, (crcShift c).getLsbD i = (crcShift d).getLsbD i := fun i => by rw [h]
  simp only [crcShift_getLsbD] at key
  have h0 : c.getLsbD 0 = d.getLsbD 0 := by
    have := key 15
    rw [BitVec.getLsbD_of_ge c _ (by omega), BitVec.getLsbD_of_ge d _ (by omega),
      show Config.crcPoly.getLsbD 15 = true from by decide] at this
    simpa using this
  apply BitVec.eq_of_getLsbD_eq
  intro i hi
  cases i with
  | zero => exact h0
  | succ i =>
    have := key i
    rw [h0] at this
    simpa using this

theorem crcShifts_injective : ∀ (n : Nat) {c d : Half}, crcShifts n c = crcShifts n d → c = d
  | 0, _, _, h => h
  | n + 1, _, _, h => crcShift_injective (crcShifts_injective n h)

/-- A step tells register values apart. -/
theorem crcStep_injective_left {c d : Half} {b : Byte} (h : crcStep c b = crcStep d b) : c = d := by
  have := crcShifts_injective 8 h
  simpa using congrArg (· ^^^ b.setWidth 16) this

/-- A step tells bytes apart. -/
theorem crcStep_injective_right {c : Half} {a b : Byte} (h : crcStep c a = crcStep c b) : a = b := by
  have h1 := congrArg (c ^^^ ·) (crcShifts_injective 8 h)
  simp only [← BitVec.xor_assoc, BitVec.xor_self, BitVec.zero_xor] at h1
  have h2 := congrArg (BitVec.setWidth 8) h1
  simpa using h2

end Sys2Proof.Machine
end

