-- ==== Sys2Proof/Laws/Decode.lean ====
section
/-! SUPPORT. The opcode map and the two fields of a command word. -/

namespace Sys2Proof

theorem findOpcode_mem {o : Byte} {i : Instr} : ∀ {l : List (Byte × Instr)}, findOpcode o l = some i → (o, i) ∈ l
  | [], h => by simp [findOpcode] at h
  | (p, j) :: rest, h => by
    unfold findOpcode at h
    split_ifs at h with hp
    · simp at h; simp [hp, h]
    · exact List.mem_cons_of_mem _ (findOpcode_mem h)

/-- The map the decoder reads and the opcodes the encoder writes are one table (30_encoding.md R82). -/
theorem opcodeMap_opcodeOf : ∀ p ∈ opcodeMap, p.1 = opcodeOf p.2 := by decide

theorem findOpcode_opcodeOf (i : Instr) : findOpcode (opcodeOf i) opcodeMap = some i := by cases i <;> rfl

/-- No two rows share an opcode (30_encoding.md R82). -/
theorem opcodeMap_pairwise : opcodeMap.Pairwise fun p q => p.1 ≠ q.1 := by decide

theorem findOpcode_eq_some {o : Byte} {i : Instr} : findOpcode o opcodeMap = some i ↔ o = opcodeOf i := by
  constructor
  · intro h; exact opcodeMap_opcodeOf _ (findOpcode_mem h)
  · rintro rfl; exact findOpcode_opcodeOf i

/-- A command word is its two fields (30_encoding.md R80). -/
theorem word_fields (w : Word) : w = rsvField w ++ opcField w := by
  apply BitVec.eq_of_getLsbD_eq
  intro i hi
  have h : (rsvField w ++ opcField w : Word).getLsbD i =
      if i < 8 then (opcField w).getLsbD i else (rsvField w).getLsbD (i - 8) := BitVec.getLsbD_append
  rw [h]
  simp only [opcField, rsvField, BitVec.getLsbD_extractLsb']
  split_ifs with h8
  · simp [h8]
  · simp [show i - 8 < 24 by omega, show 8 + (i - 8) = i by omega]

end Sys2Proof
end

