-- ==== Sys2Proof/Laws/Host.lean ====
section
/-! SUPPORT. A step, said once: the empty queue, a refused access, or the one thing each access does. -/

namespace Sys2Proof.Machine

/-- The state whose host has made the access at the head of its list. -/
theorem step_nil {s : State} (h : s.pending = []) : step s = .next s := by simp [step, nextAccess, h]

theorem step_cons {s : State} {a : Access} {rest : List Access} (h : s.pending = a :: rest) :
    step s = hostAccess a { s with pending := rest } := by simp [step, nextAccess, h]

theorem regRefusal_eq_none (off : Nat) : regRefusal off = none ↔ off % 4 = 0 ∧ off < 0x80 := by
  unfold regRefusal Config.regSpaceBytes
  split_ifs <;> simp <;> omega

/-- An access is refused exactly when it is not well-formed (20_memory.md R64). -/
theorem accessRefusal_eq_none (c : Config) (a : Access) : accessRefusal c a = none ↔ a.wellFormed c = true := by
  cases a <;> simp [accessRefusal, Access.wellFormed, regRefusal_eq_none, regOffsetWellFormed,
    show Config.regSpaceBytes = 128 from rfl]

theorem hostAccess_wellFormed {a : Access} {s : State} (h : a.wellFormed s.cfg = true) :
    hostAccess a s = performAccess a s := by
  simp [hostAccess, (accessRefusal_eq_none s.cfg a).2 h]

theorem hostAccess_illFormed {a : Access} {s : State} (h : a.wellFormed s.cfg = false) :
    ∃ r, hostAccess a s = .refused r := by
  cases h' : accessRefusal s.cfg a with
  | none => simp [(accessRefusal_eq_none s.cfg a).1 h'] at h
  | some r => exact ⟨r, by simp [hostAccess, h']⟩

theorem regAt?_some {off : Nat} {r : Reg} (h : regAt? off = some r) : regOffset r = off := by
  unfold regAt? at h
  simpa using List.find?_some h

/-- Every register is found at its own offset (10_state.md R22). -/
@[simp] theorem regAt?_regOffset (r : Reg) : regAt? (regOffset r) = some r := by cases r <;> rfl

/-- A register write is a command, a CTRL write, or a store (10_state.md R24, R30, R44). -/
theorem registerWrite_cases (off : Nat) (v : Word) (s : State) :
    (off = 0x00 ∧ registerWrite off v s = commandWrite v s) ∨
    (off = 0x08 ∧ registerWrite off v s = .next (ctrlWrite v s)) ∨
    (off ≠ 0x00 ∧ off ≠ 0x08 ∧ ∃ f, registerWrite off v s = .next { s with regs := f }
      ∧ (f = s.regs ∨ ∃ r, regAt? off = some r ∧ f = s.regs.store v r)) := by
  unfold registerWrite
  cases h : regAt? off with
  | none =>
    refine .inr (.inr ⟨?_, ?_, s.regs, rfl, .inl rfl⟩) <;> (rintro rfl; exact absurd h (by decide))
  | some r =>
    have hr := regAt?_some h
    cases r
    case cmd => exact .inl ⟨hr.symm, rfl⟩
    case ctrl => exact .inr (.inl ⟨hr.symm, rfl⟩)
    all_goals
      refine .inr (.inr ⟨?_, ?_, _, rfl, .inr ⟨_, rfl, rfl⟩⟩) <;> (rw [← hr]; decide)

/-- A store writes registers the host owns and nothing else (10_state.md R44, R21). -/
theorem store_keeps (f : RegFile) (v : Word) (r : Reg) :
    (f.store v r).status = f.status ∧ (f.store v r).res = f.res ∧ (f.store v r).crc = f.crc
      ∧ (f.store v r).rlen = f.rlen ∧ (f.store v r).cmdcnt = f.cmdcnt ∧ SameIdentity f (f.store v r) := by
  cases r <;> exact ⟨rfl, rfl, rfl, rfl, rfl, rfl, rfl, rfl, rfl, rfl⟩

/-- A CMD write is ignored, faults ILLCMD, or runs the command its word decodes to (40_command_cycle.md R100, R101). -/
theorem commandWrite_cases (w : Word) (s : State) :
    (s.regs.status.fault = true ∧ commandWrite w s = .next s) ∨
    (s.regs.status.fault = false ∧ (∃ e, decode w = .error e) ∧ commandWrite w s = .next (s.raise .illcmd)) ∨
    (s.regs.status.fault = false ∧ ∃ i, decode w = .ok i ∧ commandWrite w s = exec i s) := by
  unfold commandWrite
  cases hf : s.regs.status.fault with
  | true => exact .inl ⟨rfl, by simp⟩
  | false =>
    cases hd : decode w with
    | error e => exact .inr (.inl ⟨rfl, ⟨e, rfl⟩, by simp⟩)
    | ok i => exact .inr (.inr ⟨rfl, i, rfl, by simp⟩)

/-- Everything an answered access can do, with the guard of each case. -/
theorem hostAccess_cases {a : Access} {s t : State} (h : hostAccess a s = .next t) : a.wellFormed s.cfg = true ∧
    (t = s ∨ (∃ v, t = s.answer v)
      ∨ (∃ x b, a = .bufWrite x b ∧ x < s.cfg.bufBytes ∧ t = s.memWrite x [b])
      ∨ (∃ v r, t = { s with regs := s.regs.store v r })
      ∨ (a = .hardReset ∧ t = s.hardReset)
      ∨ (∃ v, a = .regWrite 0x08 v ∧ v.getLsbD 0 = true ∧ t = s.softReset)
      ∨ (∃ w e, a = .regWrite 0x00 w ∧ s.regs.status.fault = false ∧ decode w = .error e ∧ t = s.raise .illcmd)
      ∨ (∃ w i, a = .regWrite 0x00 w ∧ s.regs.status.fault = false ∧ decode w = .ok i ∧ exec i s = .next t)) := by
  by_cases hw : a.wellFormed s.cfg = true
  swap
  · obtain ⟨r, hr⟩ := hostAccess_illFormed (s := s) (a := a) (by simpa using hw)
    rw [hr] at h; cases h
  refine ⟨hw, ?_⟩
  rw [hostAccess_wellFormed hw] at h
  cases a with
  | regRead off => cases h; exact .inr (.inl ⟨_, rfl⟩)
  | bufRead x => cases h; exact .inr (.inl ⟨_, rfl⟩)
  | otherWidth _ _ => cases h
  | hardReset => cases h; exact .inr (.inr (.inr (.inr (.inl ⟨rfl, rfl⟩))))
  | bufWrite x b =>
    cases h
    exact .inr (.inr (.inl ⟨x, b, rfl, by simpa [Access.wellFormed] using hw, rfl⟩))
  | regWrite off v =>
    have h : registerWrite off v s = .next t := h
    obtain ⟨rfl, h'⟩ | ⟨rfl, h'⟩ | ⟨-, -, f, h', hf⟩ := registerWrite_cases off v s <;> rw [h'] at h
    · obtain ⟨-, h'⟩ | ⟨hf, ⟨e, he⟩, h'⟩ | ⟨hf, i, hd, h'⟩ := commandWrite_cases v s <;> rw [h'] at h
      · cases h; exact .inl rfl
      · cases h; exact .inr (.inr (.inr (.inr (.inr (.inr (.inl ⟨v, e, rfl, hf, he, rfl⟩))))))
      · exact .inr (.inr (.inr (.inr (.inr (.inr (.inr ⟨v, i, rfl, hf, hd, h⟩))))))
    · cases h
      unfold ctrlWrite
      split_ifs with hv
      · exact .inr (.inr (.inr (.inr (.inr (.inl ⟨v, rfl, hv, rfl⟩)))))
      · exact .inl rfl
    · cases h
      obtain rfl | ⟨r, -, rfl⟩ := hf
      · exact .inl rfl
      · exact .inr (.inr (.inr (.inl ⟨v, r, rfl⟩)))

end Sys2Proof.Machine
end

