-- ==== Sys2Proof/Laws/PerInstr.lean ====
section
/-! SUPPORT. Per-instruction families (LAWS.json). RoundTrip: a command is well-formed, its word has zero reserved bits and
the opcode R82 prints, and the decoder reads it back (30_encoding.md R80 to R82). -/

namespace Sys2Proof.Laws.RoundTrip

/-- The statement of the family, about an instruction as syntax. -/
def Statement (i : Instr) : Prop :=
  i.wellFormed = true ∧ rsvField (encode i) = 0#24 ∧ opcField (encode i) = opcodeOf i ∧ decode (encode i) = .ok i

theorem nop : Statement .nop := ⟨rfl, rfl, rfl, rfl⟩
theorem par : Statement .par := ⟨rfl, rfl, rfl, rfl⟩
theorem parbuf : Statement .parbuf := ⟨rfl, rfl, rfl, rfl⟩
theorem parchk : Statement .parchk := ⟨rfl, rfl, rfl, rfl⟩
theorem mir8 : Statement .mir8 := ⟨rfl, rfl, rfl, rfl⟩
theorem mirbuf : Statement .mirbuf := ⟨rfl, rfl, rfl, rfl⟩
theorem mir32 : Statement .mir32 := ⟨rfl, rfl, rfl, rfl⟩
theorem mir64 : Statement .mir64 := ⟨rfl, rfl, rfl, rfl⟩
theorem swp32 : Statement .swp32 := ⟨rfl, rfl, rfl, rfl⟩
theorem swp64 : Statement .swp64 := ⟨rfl, rfl, rfl, rfl⟩
theorem crca : Statement .crca := ⟨rfl, rfl, rfl, rfl⟩
theorem crcv : Statement .crcv := ⟨rfl, rfl, rfl, rfl⟩
theorem cfg : Statement .cfg := ⟨rfl, rfl, rfl, rfl⟩
theorem classify : Statement .classify := ⟨rfl, rfl, rfl, rfl⟩
theorem handle : Statement .handle := ⟨rfl, rfl, rfl, rfl⟩
theorem bpack : Statement .bpack := ⟨rfl, rfl, rfl, rfl⟩
theorem bshr : Statement .bshr := ⟨rfl, rfl, rfl, rfl⟩
theorem bshl : Statement .bshl := ⟨rfl, rfl, rfl, rfl⟩
theorem wrap : Statement .wrap := ⟨rfl, rfl, rfl, rfl⟩
theorem unwrap : Statement .unwrap := ⟨rfl, rfl, rfl, rfl⟩

end Sys2Proof.Laws.RoundTrip
end

