-- ==== Sys2Proof/Tests/Slice0.lean ====
section
/-! SUPPORT. The model's own tests. Expected values come from spec/ (95_test_vectors.md, and the worked examples and tables of
the rules); the `witness_` theorems show, for each obligation with hypotheses, states that meet them. -/

open Sys2Proof Sys2Proof.Machine

namespace Sys2Proof.Tests

set_option maxRecDepth 20000

/-! ### Small states -/

/-- A block of 256 bytes with these registers and written bytes, and a host with these accesses to make. -/
def block (r : RegFile) (m : Memory) (p : List Access) : State :=
  { State.resetWith { bufBytes := 256 } with regs := r, buf := m, pending := p }

/-- BUF with bytes written at one place, and at two. -/
def bytes1 (a : Nat) (bs : List Byte) : Memory := Memory.storeBytes [] a bs
def bytes2 (a : Nat) (bs : List Byte) (b : Nat) (cs : List Byte) : Memory := Memory.storeBytes (bytes1 a bs) b cs

/-- Operand registers. -/
def operands (src dst len padr shamt : Half) : RegFile :=
  { RegFile.reset with src := src, dst := dst, len := len, padr := padr, shamt := shamt }
def scalar (hi lo : Word) : RegFile := { RegFile.reset with opaHi := hi, opaLo := lo }

/-- The identity of V-HANDLE, staged and latched. -/
def identity (r : RegFile) : RegFile :=
  { r with
    uid := 0xAFBEADDE#32, atqa := 0x0004#16, sak := 0x08#8
    iuid := 0xAFBEADDE#32, iatqa := 0x0004#16, isak := 0x08#8, bcc := 0x62#8, sakcrc := 0xDDB6#16
    status := { r.status with cfgValid := true } }

/-- A faulted register file (P4: STATUS = 0x41). -/
def faultedRegs : RegFile := { RegFile.reset with status := { Status.reset with fault := true, fcode := .nocfg } }

def after (o : Outcome) : Option State :=
  match o with
  | .next t => some t
  | .fault _ => none
  | .refused _ => none
def refusalOf (o : Outcome) : Option Refusal :=
  match o with
  | .next _ => none
  | .fault _ => none
  | .refused r => some r
def resAfter (o : Outcome) : Option DWord := (after o).map fun t => t.regs.res
def statusAfter (o : Outcome) : Option Word := (after o).map fun t => t.regs.status.word
def bytesAfter (o : Outcome) (a n : Nat) : Option (List Byte) := (after o).map fun t => t.bytesAt a n

/-! ### WellFormed: an ill-formed term for each check, refused -/

theorem test_config_too_small : Config.wellFormed { bufBytes := 63 } = false := by decide
theorem test_config_too_large : Config.wellFormed { bufBytes := 65537 } = false := by decide
theorem test_config_bounds : Config.wellFormed { bufBytes := 64 } = true ∧ Config.wellFormed { bufBytes := 65536 } = true := by
  decide
theorem test_reg_read_unaligned_refused :
    Access.wellFormed Config.ofVectors (.regRead 0x06) = false
      ∧ refusalOf (step (block RegFile.reset [] [.regRead 0x06])) = some .unalignedRegister := by decide
theorem test_reg_read_outside_refused :
    Access.wellFormed Config.ofVectors (.regRead 0x80) = false
      ∧ refusalOf (step (block RegFile.reset [] [.regRead 0x80])) = some .outsideRegisterSpace := by decide
theorem test_reg_write_unaligned_refused :
    Access.wellFormed Config.ofVectors (.regWrite 0x0D 0#32) = false
      ∧ refusalOf (step (block RegFile.reset [] [.regWrite 0x0D 0#32])) = some .unalignedRegister := by decide
theorem test_buf_read_outside_refused :
    Access.wellFormed Config.ofVectors (.bufRead 256) = false
      ∧ refusalOf (step (block RegFile.reset [] [.bufRead 256])) = some .outsideBuffer := by decide
theorem test_buf_write_outside_refused :
    Access.wellFormed Config.ofVectors (.bufWrite 256 0#8) = false
      ∧ refusalOf (step (block RegFile.reset [] [.bufWrite 256 0#8])) = some .outsideBuffer := by decide
theorem test_other_width_refused :
    Access.wellFormed Config.ofVectors (.otherWidth .buf 0) = false
      ∧ refusalOf (step (block RegFile.reset [] [.otherWidth .buf 0])) = some .wrongWidth := by decide
theorem test_accesses_in_bounds :
    Access.wellFormed Config.ofVectors (.regRead 0x7C) = true ∧ Access.wellFormed Config.ofVectors (.bufWrite 255 0#8) = true
      ∧ Access.wellFormed Config.ofVectors .hardReset = true := by decide

/-! ### Decoding: words written out from R80 (bits [31:8] zero, OPC in [7:0]) and R82 -/

theorem test_decode_control : decode 0b000000000000000000000000_00000000#32 = .ok .nop := by rfl
theorem test_decode_parity :
    decode 0b000000000000000000000000_00000001#32 = .ok .par ∧ decode 0b000000000000000000000000_00000010#32 = .ok .parbuf
      ∧ decode 0b000000000000000000000000_00000011#32 = .ok .parchk := ⟨rfl, rfl, rfl⟩
theorem test_decode_mirror :
    decode 0b000000000000000000000000_00010000#32 = .ok .mir8 ∧ decode 0b000000000000000000000000_00010001#32 = .ok .mirbuf
      ∧ decode 0b000000000000000000000000_00010010#32 = .ok .mir32
      ∧ decode 0b000000000000000000000000_00010011#32 = .ok .mir64 := ⟨rfl, rfl, rfl, rfl⟩
theorem test_decode_swap :
    decode 0b000000000000000000000000_00011000#32 = .ok .swp32
      ∧ decode 0b000000000000000000000000_00011001#32 = .ok .swp64 := ⟨rfl, rfl⟩
theorem test_decode_crc :
    decode 0b000000000000000000000000_00100000#32 = .ok .crca
      ∧ decode 0b000000000000000000000000_00100001#32 = .ok .crcv := ⟨rfl, rfl⟩
theorem test_decode_responder :
    decode 0b000000000000000000000000_00110000#32 = .ok .cfg ∧ decode 0b000000000000000000000000_00110001#32 = .ok .classify
      ∧ decode 0b000000000000000000000000_00110010#32 = .ok .handle := ⟨rfl, rfl, rfl⟩
theorem test_decode_bitbuffer :
    decode 0b000000000000000000000000_01000000#32 = .ok .bpack ∧ decode 0b000000000000000000000000_01000001#32 = .ok .bshr
      ∧ decode 0b000000000000000000000000_01000010#32 = .ok .bshl ∧ decode 0b000000000000000000000000_01000011#32 = .ok .wrap
      ∧ decode 0b000000000000000000000000_01000100#32 = .ok .unwrap := ⟨rfl, rfl, rfl, rfl, rfl⟩
/-- F2 and the other ends of the gaps of R85. -/
theorem test_decode_unassigned :
    ∀ w ∈ [0x04, 0x0F, 0x14, 0x17, 0x1A, 0x1F, 0x22, 0x2F, 0x33, 0x3F, 0x45, 0xFF],
      decodeTableWord 32 w = none ∧ (decode (BitVec.ofNat 32 w)).toOption = none := by decide
/-- F3: bits [31:8] must be 0 even with a valid opcode. -/
theorem test_decode_reserved_bits :
    decode 0x00000100#32 = .error .reservedBits ∧ decode 0x00000120#32 = .error .reservedBits
      ∧ decode 0x80000000#32 = .error .reservedBits := ⟨rfl, rfl, rfl⟩
theorem test_encode : encode .nop = 0x00000000#32 ∧ encode .crca = 0x00000020#32 ∧ encode .unwrap = 0x00000044#32 := by decide
theorem test_decode_table_word :
    decodeTableWord 32 0x20 = some .crca ∧ decodeTableWord 8 0x44 = some .unwrap ∧ decodeTableWord 40 0x100000020 = none := by
  decide
theorem test_fetch_word :
    ((after (step (State.reset.withFetchWord 32 0x31))).map fun t => (t.regs.cmdcnt, t.pending)) = some (1#32, []) := by decide

/-! ### Control and parity -/

/-- F10: CMDCNT wraps. -/
theorem test_nop_wraps :
    ((after (execNop (block { RegFile.reset with cmdcnt := 0xFFFFFFFF#32 } [] []))).map fun t => t.regs.cmdcnt)
      = some 0x00000000#32 := by decide
/-- V-PAR: 0x93 has four set bits; bits [63:8] are ignored. -/
theorem test_par_even : resAfter (execPar (block (scalar 0#32 0x00000093#32) [] [])) = some 1#64 := by decide
theorem test_par_odd : resAfter (execPar (block (scalar 0xFFFFFFFF#32 0xFFFFFF7F#32) [] [])) = some 0#64 := by decide
/-- PB2: in place, from the snapshot. -/
theorem test_parbuf_in_place :
    bytesAfter (execParbuf (block (operands 0 0 2 0 0) (bytes1 0 [0x93#8, 0x20#8]) [])) 0 2 = some [0x01#8, 0x00#8] := by decide
/-- PB3. -/
theorem test_parbuf_range :
    statusAfter (execParbuf (block (operands 0xFE 0 2 0xFF 0) [] [])) = some 0x00000021#32 := by decide
/-- PC3: slot bits [7:1] are ignored. -/
theorem test_parchk_slots :
    bytesAfter (execParchk (block (operands 0 0x20 3 0x10 0)
      (bytes2 0 [0x93#8, 0x20#8, 0x70#8] 0x10 [0xFE#8, 0x03#8, 0x01#8]) [])) 0x20 3 = some [0x01#8, 0x01#8, 0x01#8] := by decide
/-- PC2: RES = 1, MISM = 1. -/
theorem test_parchk_flags :
    ((after (execParchk (block (operands 0 0x20 2 0x10 0) (bytes2 0 [0x93#8, 0x20#8] 0x10 [0x01#8, 0x01#8]) []))).map
      fun t => (t.regs.res, t.regs.status.word)) = some (1#64, 0x00002000#32) := by decide

/-! ### Mirror and swap -/

theorem test_mir8 : resAfter (execMir8 (block (scalar 0xFF#32 0xFFFFFF93#32) [] [])) = some 0x00000000000000C9#64 := by decide
/-- M10. -/
theorem test_mirbuf :
    bytesAfter (execMirbuf (block (operands 0 0 4 0 0) (bytes1 0 [0x01#8, 0x80#8, 0x93#8, 0x26#8]) [])) 0 4
      = some [0x80#8, 0x01#8, 0xC9#8, 0x64#8] := by decide
/-- M1, M5. -/
theorem test_mir32_lane : resAfter (execMir32 (block (scalar 0#32 0x00000001#32) [] [])) = some 0x0000000000000080#64 := by decide
theorem test_mir32_ignores_high :
    resAfter (execMir32 (block (scalar 0xFFFFFFFF#32 0x01020304#32) [] [])) = some 0x000000008040C020#64 := by decide
/-- M9. -/
theorem test_mir64 :
    resAfter (execMir64 (block (scalar 0x01234567#32 0x89ABCDEF#32) [] [])) = some 0x80C4A2E691D5B3F7#64 := by decide
/-- S1, S3. -/
theorem test_swp32_odd_address :
    resAfter (execSwp32 (block (operands 1 0 0 0 0) (bytes1 1 [0x12#8, 0x34#8, 0x56#8, 0x78#8]) []))
      = some 0x0000000012345678#64 := by decide
theorem test_swp32_range : statusAfter (execSwp32 (block (operands 0xFD 0 0 0 0) [] [])) = some 0x00000021#32 := by decide
/-- S5: the last eight bytes of BUF. -/
theorem test_swp64_last_bytes :
    resAfter (execSwp64 (block (operands 0xF8 0 0 0 0)
      (bytes1 0xF8 [0x80#8, 0x00#8, 0x00#8, 0x00#8, 0x00#8, 0x00#8, 0x00#8, 0x01#8]) [])) = some 0x8000000000000001#64 := by
  decide

/-! ### CRC-A -/

/-- V-CRC: the check value, and W3. -/
theorem test_crc_check_value :
    crcA [0x31#8, 0x32#8, 0x33#8, 0x34#8, 0x35#8, 0x36#8, 0x37#8, 0x38#8, 0x39#8] = 0xBF05#16
      ∧ crcA [0x00#8] = 0x51FE#16 ∧ crcA [0x00#8, 0x00#8] = 0x1EA0#16 := by decide
/-- C3: DST inside the input, from the snapshot. -/
theorem test_crca_overlap :
    bytesAfter (execCrca (block (operands 0 1 2 0 0) (bytes1 0 [0x50#8, 0x00#8]) [])) 0 3
      = some [0x50#8, 0x57#8, 0xCD#8] := by decide
/-- C2: the empty range. -/
theorem test_crca_empty :
    bytesAfter (execCrca (block (operands 0 0 0 0 0) [] [])) 0 2 = some [0x63#8, 0x63#8] := by decide
/-- C5. -/
theorem test_crcv_match :
    ((after (execCrcv (block (operands 0 0 4 0 0) (bytes1 0 [0x50#8, 0x00#8, 0x57#8, 0xCD#8]) []))).map
      fun t => (t.regs.crc, t.regs.status.vok)) = some (0xCD57#16, true) := by decide
/-- C9: BADLEN before RANGE. -/
theorem test_crcv_badlen : statusAfter (execCrcv (block (operands 0xFFFF 0 1 0 0) [] [])) = some 0x00000031#32 := by decide

/-! ### Responder -/

/-- V-CFG. -/
theorem test_cfg :
    ((after (execCfg (block { RegFile.reset with uid := 0xAFBEADDE#32, sak := 0x08#8 } [] []))).map
      fun t => (t.regs.bcc, t.regs.sakcrc, t.regs.crc, t.regs.status.word)) = some (0x62#8, 0xDDB6#16, 0x6363#16, 0x00000100#32) := by
  decide
/-- V-CLS. -/
theorem test_classify_select_all :
    statusAfter (execClassify (block (operands 0 0 16 0 0) [] [])) = some 0x00000800#32 := by decide
theorem test_classify_unknown : resAfter (execClassify (block (operands 0 0 71 0 0) [] [])) = some 0#64 := by decide
/-- V-HANDLE, 72 bits. -/
theorem test_handle_select_tag :
    ((after (execHandle (block (identity (operands 0 0x40 72 0 0)) [] []))).map
      fun t => (t.bytesAt 0x40 3, t.regs.rlen, t.regs.status.word)) = some ([0x08#8, 0xB6#8, 0xDD#8], 24#16, 0x00000F00#32) := by
  decide
/-- H4: an unknown length is no fault, wherever DST points. -/
theorem test_handle_unknown :
    ((after (execHandle (block (identity (operands 0 0xFFFF 8 0 0)) [] []))).map fun t => (t.buf, t.regs.rlen, t.regs.status.word))
      = some ([], 0#16, 0x00000100#32) := by decide

/-! ### BitBuffers -/

/-- V-BPACK. -/
theorem test_bpack_residual : resAfter (execBpack (block (operands 0 0 9 0 0) [] [])) = some 0x01010002#64 := by decide
theorem test_bpack_largest : resAfter (execBpack (block (operands 0 0 65535 0 0) [] [])) = some 0x7F072000#64 := by decide
/-- V-BSHR, k = 3; and the copy that clears a pad bit. -/
theorem test_bshr :
    bytesAfter (execBshr (block (operands 0 0x10 16 0 3) (bytes1 0 [0x93#8, 0x20#8]) [])) 0x10 2 = some [0x12#8, 0x04#8] := by decide
theorem test_bshr_clears_pad :
    bytesAfter (execBshr (block (operands 0 0 7 0 0) (bytes1 0 [0xA6#8]) [])) 0 1 = some [0x26#8] := by decide
/-- V-BSHL, k = 7; and BADLEN. -/
theorem test_bshl :
    bytesAfter (execBshl (block (operands 0 0x10 16 0 7) (bytes1 0 [0x93#8, 0x20#8]) [])) 0x10 3
      = some [0x80#8, 0x49#8, 0x10#8] := by decide
theorem test_bshl_badlen : statusAfter (execBshl (block (operands 0 0 65535 0 1) [] [])) = some 0x00000031#32 := by decide
/-- V-WRAP: AB 0C at 12 bits; and the last length without BADLEN. -/
theorem test_wrap_residual :
    bytesAfter (execWrap (block (operands 0 0x80 12 0x40 0) (bytes2 0 [0xAB#8, 0x0C#8] 0x40 [0x01#8]) [])) 0x80 2
      = some [0xAB#8, 0x19#8] := by decide
theorem test_wrap_limit :
    statusAfter (execWrap (block (operands 0 0 58255 0 0) [] [])) = some 0x00000031#32
      ∧ statusAfter (execWrap (block (operands 0 0 58254 0 0) [] [])) = some 0x00000021#32 := by decide
/-- V-UNWRAP: AB 19 at 13 bits. -/
theorem test_unwrap_residual :
    ((after (execUnwrap (block (operands 0x80 0 13 0x40 0) (bytes1 0x80 [0xAB#8, 0x19#8]) []))).map
      fun t => (t.bytesAt 0 2, t.byte 0x40, t.regs.res)) = some ([0xAB#8, 0x0C#8], 0x01#8, 12#64) := by decide
/-- R67: where DST and PADR overlap, the slot wins. -/
theorem test_unwrap_slot_wins :
    bytesAfter (execUnwrap (block (operands 0x20 0x30 18 0x31 0) (bytes1 0x20 [0x93#8, 0x41#8, 0x00#8]) [])) 0x30 3
      = some [0x93#8, 0x01#8, 0x00#8] := by decide

/-! ### Host accesses, faults, reset -/

/-- P4: the STATUS word after an illegal command on a configured block that has answered. -/
theorem test_status_word :
    statusAfter (step (block (identity { RegFile.reset with status := { Status.reset with cls := .request, reply := true } }) []
      [.regWrite 0x00 0x00000120#32])) = some 0x00000711#32 := by decide
/-- F8. -/
theorem test_reserved_bits_read_zero :
    ((after (Sys2Proof.core.run 2 (block RegFile.reset [] [.regWrite 0x0C 0xFFFFFFFF#32, .regRead 0x0C]))).map
      fun t : State => t.returned) = some [.reg 0x0000FFFF#32] := by decide
/-- F5: soft reset under FAULT keeps BUF. -/
theorem test_soft_reset :
    ((after (step (block faultedRegs (bytes1 3 [0x55#8]) [.regWrite 0x08 0x00000001#32]))).map fun t => (t.regs, t.buf))
      = some (RegFile.reset, [(3, 0x55#8)]) := by decide
/-- R87, R88: P1's `ld` and `cmd` as bus transactions. -/
theorem test_host_program :
    hostProgram [.wb 0x00 [0x50#8, 0x00#8], .ld [(.src, 0#32), (.len, 2#32)], .cmd .crca, .rb 0x02 2, .rd .status]
      = [.bufWrite 0x00 0x50#8, .bufWrite 0x01 0x00#8, .regWrite 0x0C 0#32, .regWrite 0x14 2#32, .regWrite 0x00 0x00000020#32,
         .bufRead 0x02, .bufRead 0x03, .regRead 0x04] := by decide
/-- A store keeps BUF canonical: rewriting a byte does not list it twice, and addresses rise. -/
theorem test_store_canonical :
    Memory.store (Memory.store (Memory.store [] 7 1#8) 2 5#8) 7 9#8 = [(2, 5#8), (7, 9#8)]
      ∧ Memory.wf 8 [(2, 5#8), (7, 9#8)] = true ∧ Memory.wf 7 [(2, 5#8), (7, 9#8)] = false
      ∧ Memory.wf 8 [(2, 5#8), (2, 9#8)] = false := by decide
/-- A safe run of two accesses (R254). -/
theorem test_safe_run : ∃ t, SafeRun 2 (block RegFile.reset [] [.regWrite 0x14 0x10#32, .regWrite 0x00 0x31#32]) t := by
  refine ⟨_, rfl, ?_⟩
  unfold State.faulted; decide

/-! ### Witnesses: for each obligation with hypotheses, states that meet every clause, at the ends of its range -/

/-- Two faulted hosts: one about to write CMD, one about to reset. -/
def faultedBlock : State := block faultedRegs [] [.regWrite 0x00 0x30#32]
def faultedReset : State := block faultedRegs [] [.regWrite 0x08 1#32]
/-- A block whose next access is a CMD write. -/
def commanded (w : Word) : State := block RegFile.reset [] [.regWrite 0x00 w]

theorem not_command_four (i : Instr) : decode 0x04#32 ≠ .ok i := by cases i <;> decide

theorem witness_IllegalWordsAreTheReservedOnes :
    (commanded 0x04#32).pending = [.regWrite 0x00 0x04#32] ∧ (commanded 0x04#32).regs.status.fault = false
      ∧ ∀ i, decode 0x04#32 ≠ .ok i := ⟨rfl, rfl, not_command_four⟩
theorem witness_StepRunsDecodedCommand :
    (commanded 0x44#32).pending = [.regWrite 0x00 0x44#32] ∧ (commanded 0x44#32).regs.status.fault = false
      ∧ decode 0x44#32 = .ok .unwrap := ⟨rfl, rfl, rfl⟩
theorem witness_FaultedBlockIgnoresCommands :
    (faultedBlock.pending = [.regWrite 0x00 0x30#32] ∧ faultedBlock.regs.status.fault = true)
      ∧ (∀ a, faultedBlock.pending.head? = some a → isResetAccess a = false)
      ∧ (∃ t, step faultedBlock = .next t)
      ∧ (faultedReset.pending = [.regWrite 0x08 1#32] ∧ isResetAccess (.regWrite 0x08 1#32) = true) :=
  ⟨⟨rfl, rfl⟩, by rintro a ⟨⟩; rfl, ⟨_, rfl⟩, rfl, rfl⟩
theorem witness_IdleBlockHoldsItsState : State.reset.pending = [] := rfl
theorem witness_LengthChecks :
    lengthInvalid .crcv 1 0 ∧ lengthInvalid .bshl 65535 1 ∧ lengthInvalid .wrap 58255 0 ∧ lengthInvalid .unwrap 8 0
      ∧ ¬ lengthInvalid .crcv 2 0 ∧ ¬ lengthInvalid .bshl 65535 0 ∧ ¬ lengthInvalid .wrap 58254 0
      ∧ ¬ lengthInvalid .unwrap 7 0 := by simp [lengthInvalid]
theorem witness_CommandsFaultInTableOrder :
    lacksConfiguration .handle State.reset ∧ ¬ lacksConfiguration .crcv State.reset
      ∧ (¬ lacksConfiguration .crcv (block (operands 255 0 2 0 0) [] [])
          ∧ ¬ rangesFit .crcv (block (operands 255 0 2 0 0) [] []))
      ∧ (¬ lacksConfiguration .crcv (block (operands 254 0 2 0 0) [] [])
          ∧ rangesFit .crcv (block (operands 254 0 2 0 0) [] [])) := by
  refine ⟨⟨rfl, rfl⟩, ?_, ⟨?_, ?_⟩, ?_, ?_⟩ <;>
    simp [lacksConfiguration, rangesFit, inputRanges, outputRanges, InBuf, block, operands, State.resetWith]
theorem witness_NopOnlyCounts :
    (block faultedRegs [] [.regWrite 0x00 0#32]).pending = [.regWrite 0x00 0#32] ∧ faultedRegs.status.fault = true :=
  ⟨rfl, rfl⟩

/-- The last byte of BUF is in range, one more is not, and an empty range always is (R104). -/
theorem witness_InBuf :
    InBuf { bufBytes := 256 } 0 256 ∧ InBuf { bufBytes := 256 } 255 1 ∧ ¬ InBuf { bufBytes := 256 } 255 2
      ∧ InBuf { bufBytes := 256 } 65535 0 := by unfold InBuf; decide
theorem witness_ParbufWritesParitySlots :
    (InBuf (block (operands 254 0 2 252 0) [] []).cfg 254 2 ∧ InBuf (block (operands 254 0 2 252 0) [] []).cfg 252 2)
      ∧ ¬ (InBuf (block (operands 254 0 2 255 0) [] []).cfg 254 2 ∧ InBuf (block (operands 254 0 2 255 0) [] []).cfg 255 2) := by
  unfold InBuf; decide
theorem witness_ParchkFlagsMismatches :
    (InBuf (block (operands 254 250 2 252 0) [] []).cfg 254 2 ∧ InBuf (block (operands 254 250 2 252 0) [] []).cfg 252 2
        ∧ InBuf (block (operands 254 250 2 252 0) [] []).cfg 250 2)
      ∧ ¬ (InBuf (block (operands 0 255 2 4 0) [] []).cfg 0 2 ∧ InBuf (block (operands 0 255 2 4 0) [] []).cfg 4 2
        ∧ InBuf (block (operands 0 255 2 4 0) [] []).cfg 255 2) := by unfold InBuf; decide
theorem witness_MirbufReversesBytesInPlace :
    InBuf (block (operands 0 0 256 0 0) [] []).cfg (operands 0 0 256 0 0).src.toNat (operands 0 0 256 0 0).len.toNat
      ∧ ¬ InBuf (block (operands 0 0 257 0 0) [] []).cfg (operands 0 0 257 0 0).src.toNat (operands 0 0 257 0 0).len.toNat := by
  unfold InBuf; decide
theorem witness_MirroringTwiceRestores :
    InBuf (block (operands 0 0 256 0 0) [] []).cfg (operands 0 0 256 0 0).src.toNat (operands 0 0 256 0 0).len.toNat := by
  unfold InBuf; decide
theorem witness_SwpReversesBytes :
    (InBuf (block (operands 252 0 0 0 0) [] []).cfg 252 4 ∧ ¬ InBuf (block (operands 253 0 0 0 0) [] []).cfg 253 4)
      ∧ InBuf (block (operands 248 0 0 0 0) [] []).cfg 248 8 ∧ ¬ InBuf (block (operands 249 0 0 0 0) [] []).cfg 249 8 := by
  unfold InBuf; decide
theorem witness_CrcaStoresChecksum :
    (InBuf (block (operands 0 254 256 0 0) [] []).cfg 0 256 ∧ InBuf (block (operands 0 254 256 0 0) [] []).cfg 254 2)
      ∧ ¬ (InBuf (block (operands 0 255 2 0 0) [] []).cfg 0 2 ∧ InBuf (block (operands 0 255 2 0 0) [] []).cfg 255 2) := by
  unfold InBuf; decide
theorem witness_CrcvComparesTrailer :
    (2 ≤ (operands 254 0 2 0 0).len.toNat ∧ InBuf (block (operands 254 0 2 0 0) [] []).cfg 254 2)
      ∧ (operands 0xFFFF 0 1 0 0).len.toNat < 2
      ∧ (2 ≤ (operands 255 0 2 0 0).len.toNat ∧ ¬ InBuf (block (operands 255 0 2 0 0) [] []).cfg 255 2) := by
  unfold InBuf; decide
theorem witness_CrcaThenCrcvVerifies :
    (operands 0 254 254 0 0).dst.toNat = (operands 0 254 254 0 0).src.toNat + (operands 0 254 254 0 0).len.toNat
      ∧ (operands 0 254 254 0 0).len.toNat + 2 ≤ 65535
      ∧ InBuf (block (operands 0 254 254 0 0) [] []).cfg 0 (254 + 2) := by unfold InBuf; decide

/-- C8's buffer and the same with its last byte changed. -/
def verified : State := block (operands 0 0 2 0 0) (bytes1 0 [0x63#8, 0x63#8]) []
def corrupted : State := block (operands 0 0 2 0 0) (bytes1 0 [0x63#8, 0x62#8]) []
theorem witness_CrcvRejectsOneChangedByte :
    2 ≤ verified.regs.len.toNat ∧ InBuf verified.cfg verified.regs.src.toNat verified.regs.len.toNat
      ∧ corrupted.regs = verified.regs ∧ corrupted.cfg = verified.cfg ∧ 1 < verified.regs.len.toNat
      ∧ corrupted.byte (verified.regs.src.toNat + 1) ≠ verified.byte (verified.regs.src.toNat + 1)
      ∧ (∀ k, k < verified.regs.len.toNat → k ≠ 1 →
          corrupted.byte (verified.regs.src.toNat + k) = verified.byte (verified.regs.src.toNat + k))
      ∧ ∃ t, exec .crcv verified = .next t ∧ t.regs.status.vok = true := by
  refine ⟨by decide, by unfold InBuf; decide, rfl, rfl, by decide, by decide, ?_, _, rfl, by decide⟩
  intro k hk h
  have : k = 0 := by
    have : verified.regs.len.toNat = 2 := rfl
    omega
  subst this; decide

theorem witness_ClassifyByBitCount :
    (operands 0 0 7 0 0).len = 7#16 ∧ (operands 0 0 16 0 0).len = 16#16 ∧ (operands 0 0 72 0 0).len = 72#16
      ∧ ((operands 0 0 71 0 0).len ≠ 7#16 ∧ (operands 0 0 71 0 0).len ≠ 16#16 ∧ (operands 0 0 71 0 0).len ≠ 72#16) := by decide

/-- Configured blocks for the four classes; the replies of 40 and 16 bits end at the last byte of BUF. -/
def configured (dst len : Half) : State := block (identity (operands 0 dst len 0 0)) [] []
theorem witness_HandleAnswersByBitCount :
    State.reset.regs.status.cfgValid = false
      ∧ ((configured 252 16).regs.status.cfgValid = true ∧ ¬ InBuf (configured 252 16).cfg 252 (replyBytes 16))
      ∧ ((configured 254 7).regs.status.cfgValid = true ∧ InBuf (configured 254 7).cfg 254 (replyBytes 7))
      ∧ ((configured 251 16).regs.status.cfgValid = true ∧ InBuf (configured 251 16).cfg 251 (replyBytes 16))
      ∧ ((configured 253 72).regs.status.cfgValid = true ∧ InBuf (configured 253 72).cfg 253 (replyBytes 72))
      ∧ ((configured 0xFFFF 73).regs.status.cfgValid = true ∧ InBuf (configured 0xFFFF 73).cfg 0xFFFF (replyBytes 73)
        ∧ (configured 0xFFFF 73).regs.len ≠ 7#16 ∧ (configured 0xFFFF 73).regs.len ≠ 16#16
        ∧ (configured 0xFFFF 73).regs.len ≠ 72#16) := by unfold InBuf; decide

/-- The same block, with other bytes in BUF, another SRC and another CRC. -/
def configuredOther (dst len : Half) : State :=
  block { identity (operands 9 dst len 0 0) with crc := 1#16 } (bytes1 9 [0xAA#8]) []
theorem witness_ReplyDependsOnLengthAndIdentity :
    (configured 251 16).regs.status.cfgValid = true ∧ (configuredOther 251 16).regs.status.cfgValid = true
      ∧ SameIdentity (configured 251 16).regs (configuredOther 251 16).regs
      ∧ (configuredOther 251 16).regs.len = (configured 251 16).regs.len
      ∧ (configuredOther 251 16).regs.dst = (configured 251 16).regs.dst
      ∧ InBuf (configured 251 16).cfg 251 (replyBytes 16) ∧ InBuf (configuredOther 251 16).cfg 251 (replyBytes 16) := by
  unfold InBuf SameIdentity; decide

theorem witness_BshrDropsLeadingBits :
    (InBuf (block (operands 254 255 16 0 8) [] []).cfg 254 ((16 + 7) / 8)
        ∧ InBuf (block (operands 254 255 16 0 8) [] []).cfg 255 ((16 - 8 + 7) / 8))
      ∧ ¬ (InBuf (block (operands 255 0 16 0 20) [] []).cfg 255 ((16 + 7) / 8)
        ∧ InBuf (block (operands 255 0 16 0 20) [] []).cfg 0 ((0 + 7) / 8)) := by unfold InBuf; decide
theorem witness_BshlPrependsZeroBits :
    (16 + 1 ≤ 65535 ∧ InBuf (block (operands 254 253 16 0 1) [] []).cfg 254 ((16 + 7) / 8)
        ∧ InBuf (block (operands 254 253 16 0 1) [] []).cfg 253 ((16 + 1 + 7) / 8))
      ∧ 65535 < (operands 0 0 65535 0 1).len.toNat + (operands 0 0 65535 0 1).shamt.toNat
      ∧ ((operands 0 0 65000 0 535).len.toNat + (operands 0 0 65000 0 535).shamt.toNat ≤ 65535
        ∧ ¬ (InBuf (block (operands 0 0 65000 0 535) [] []).cfg 0 ((65000 + 7) / 8)
          ∧ InBuf (block (operands 0 0 65000 0 535) [] []).cfg 0 ((65000 + 535 + 7) / 8))) := by unfold InBuf; decide
theorem witness_WrapInterleavesParity :
    (16 + 2 ≤ 65535 ∧ InBuf (block (operands 0 253 16 254 0) [] []).cfg 0 ((16 + 7) / 8)
        ∧ InBuf (block (operands 0 253 16 254 0) [] []).cfg 254 2
        ∧ InBuf (block (operands 0 253 16 254 0) [] []).cfg 253 ((16 + 2 + 7) / 8))
      ∧ 65535 < (operands 0 0 58255 0 0).len.toNat + (operands 0 0 58255 0 0).len.toNat / 8
      ∧ ((operands 0 0 58254 0 0).len.toNat + (operands 0 0 58254 0 0).len.toNat / 8 ≤ 65535
        ∧ ¬ (InBuf (block (operands 0 0 58254 0 0) [] []).cfg 0 ((58254 + 7) / 8)
          ∧ InBuf (block (operands 0 0 58254 0 0) [] []).cfg 0 (58254 / 8)
          ∧ InBuf (block (operands 0 0 58254 0 0) [] []).cfg 0 ((58254 + 7281 + 7) / 8))) := by unfold InBuf; decide
theorem witness_UnwrapSplitsStream :
    ((operands 253 254 18 252 0).len.toNat % 9 ≠ 8 ∧ InBuf (block (operands 253 254 18 252 0) [] []).cfg 253 ((18 + 7) / 8)
        ∧ InBuf (block (operands 253 254 18 252 0) [] []).cfg 254 ((16 + 7) / 8)
        ∧ InBuf (block (operands 253 254 18 252 0) [] []).cfg 252 2)
      ∧ (operands 0 0 26 0 0).len.toNat % 9 = 8
      ∧ ((operands 0 0 18 255 0).len.toNat % 9 ≠ 8 ∧ ¬ (InBuf (block (operands 0 0 18 255 0) [] []).cfg 0 ((18 + 7) / 8)
        ∧ InBuf (block (operands 0 0 18 255 0) [] []).cfg 0 ((16 + 7) / 8)
        ∧ InBuf (block (operands 0 0 18 255 0) [] []).cfg 255 2)) := by unfold InBuf; decide
theorem witness_BshrUndoesBshl :
    16 + 4 ≤ 65535 ∧ InBuf (block (operands 0 253 16 0 4) [] []).cfg 0 ((16 + 7) / 8)
      ∧ InBuf (block (operands 0 253 16 0 4) [] []).cfg 253 ((16 + 4 + 7) / 8)
      ∧ InBuf (block (operands 0 253 16 0 4) [] []).cfg 254 ((16 + 7) / 8) := by unfold InBuf; decide
theorem witness_BshlAfterBshrClearsLeadingBits :
    16 ≤ 16 ∧ InBuf (block (operands 254 0xFFFF 16 0 16) [] []).cfg 254 ((16 + 7) / 8)
      ∧ InBuf (block (operands 254 0xFFFF 16 0 16) [] []).cfg 0xFFFF ((16 - 16 + 7) / 8)
      ∧ InBuf (block (operands 254 0xFFFF 16 0 16) [] []).cfg 0 ((16 + 7) / 8) := by unfold InBuf; decide
theorem witness_BshrComposes :
    3 + (5#16).toNat ≤ 65535 ∧ InBuf (block (operands 0 254 16 0 3) [] []).cfg 0 ((16 + 7) / 8)
      ∧ InBuf (block (operands 0 254 16 0 3) [] []).cfg 254 ((16 - 3 + 7) / 8)
      ∧ InBuf (block (operands 0 254 16 0 3) [] []).cfg 255 ((16 - (3 + (5#16).toNat) + 7) / 8) := by unfold InBuf; decide
theorem witness_UnwrapUndoesWrap :
    16 ≤ 58254 ∧ InBuf (block (operands 0 253 16 4 0) [] []).cfg 0 ((16 + 7) / 8)
      ∧ InBuf (block (operands 0 253 16 4 0) [] []).cfg 4 2 ∧ InBuf (block (operands 0 253 16 4 0) [] []).cfg 253 ((16 + 2 + 7) / 8)
      ∧ InBuf (block (operands 0 253 16 4 0) [] []).cfg 0 ((16 + 7) / 8) ∧ InBuf (block (operands 0 253 16 4 0) [] []).cfg 2 2
      ∧ (0 + (16 + 7) / 8 ≤ 2 ∨ 2 + 2 ≤ 0) := by unfold InBuf; decide
theorem witness_WrapUndoesUnwrap :
    18 % 9 ≠ 8 ∧ InBuf (block (operands 253 0 18 2 0) [] []).cfg 253 ((18 + 7) / 8)
      ∧ InBuf (block (operands 253 0 18 2 0) [] []).cfg 0 ((16 + 7) / 8) ∧ InBuf (block (operands 253 0 18 2 0) [] []).cfg 2 2
      ∧ InBuf (block (operands 253 0 18 2 0) [] []).cfg 4 ((18 + 7) / 8) ∧ (0 + (16 + 7) / 8 ≤ 2 ∨ 2 + 2 ≤ 0) := by
  unfold InBuf; decide

/-- For the two "written by" statements: a command with each premise, completing. -/
theorem witness_WritersOfRegistersAndStatus :
    (∃ t, exec .parbuf State.reset = .next t) ∧ (Instr.par ≠ .crca ∧ Instr.par ≠ .crcv ∧ ∃ t, exec .par State.reset = .next t)
      ∧ (Instr.crca ≠ .cfg ∧ Instr.crca ≠ .handle ∧ ∃ t, exec .crca State.reset = .next t)
      ∧ (Instr.cfg ≠ .crcv ∧ Instr.cfg ≠ .parchk ∧ Instr.cfg ≠ .classify ∧ Instr.cfg ≠ .handle ∧ ∃ t, exec .cfg State.reset = .next t)
      ∧ ((configured 0 8).regs.status.cfgValid = true ∧ ∃ t, exec .handle (configured 0 8) = .next t) :=
  ⟨⟨_, rfl⟩, ⟨by decide, by decide, _, rfl⟩, ⟨by decide, by decide, _, rfl⟩,
    ⟨by decide, by decide, by decide, by decide, _, rfl⟩, rfl, _, rfl⟩
/-- A completed CRCA and the byte after its output; a faulted HANDLE. -/
theorem witness_CommandsWriteOnlyTheirRanges :
    (∃ t, exec .crca State.reset = .next t ∧ ∀ r ∈ outputRanges .crca State.reset, 2 < r.1 ∨ r.1 + r.2 ≤ 2)
      ∧ ∃ t, exec .handle State.reset = .next t ∧ t.regs.cmdcnt = State.reset.regs.cmdcnt :=
  ⟨⟨_, rfl, by decide⟩, _, rfl, rfl⟩
/-- Two blocks that agree on SWP32's operand and nowhere need agree else. -/
theorem witness_CommandsReadOnlyTheirRanges :
    (block (operands 0 0 0 0 0) (bytes1 0 [1#8, 2#8, 3#8, 4#8, 5#8]) []).cfg = (block (operands 0 0 0 0 0) (bytes1 0 [1#8, 2#8, 3#8, 4#8, 6#8]) []).cfg
      ∧ (block (operands 0 0 0 0 0) (bytes1 0 [1#8, 2#8, 3#8, 4#8, 5#8]) []).regs
        = (block (operands 0 0 0 0 0) (bytes1 0 [1#8, 2#8, 3#8, 4#8, 6#8]) []).regs
      ∧ ∀ r ∈ inputRanges .swp32 (block (operands 0 0 0 0 0) (bytes1 0 [1#8, 2#8, 3#8, 4#8, 6#8]) []), ∀ k, k < r.2 →
        (block (operands 0 0 0 0 0) (bytes1 0 [1#8, 2#8, 3#8, 4#8, 5#8]) []).byte (r.1 + k)
          = (block (operands 0 0 0 0 0) (bytes1 0 [1#8, 2#8, 3#8, 4#8, 6#8]) []).byte (r.1 + k) := by
  refine ⟨rfl, rfl, ?_⟩
  intro r hr k hk
  have hr : r = (0, 4) := by simpa [inputRanges, block, operands] using hr
  subst hr
  have h4 : k < 4 := hk
  have : k = 0 ∨ k = 1 ∨ k = 2 ∨ k = 3 := by omega
  rcases this with rfl | rfl | rfl | rfl <;> decide

/-- A configured block that has answered a 16-bit frame, about to run CRCA over it. -/
def answered : State :=
  block { identity (operands 0x40 0x45 5 0 0) with
      rlen := 40#16, cmdcnt := 2#32
      status := { Status.reset with cfgValid := true, reply := true, cls := .selectAll } }
    (bytes1 0x40 [0xDE#8, 0xAD#8, 0xBE#8, 0xAF#8, 0x62#8]) [.regWrite 0x00 0x20#32]
theorem witness_StepKeepsInvariant : answered.Inv ∧ ∃ t, step answered = .next t :=
  ⟨⟨by decide, by decide, by decide, by decide, by decide, by decide, by decide, by decide, by decide⟩, _, rfl⟩
theorem witness_ResetHasInvariant : Config.wellFormed { bufBytes := 64 } = true := by decide
theorem witness_FaultLastsUntilReset :
    faultedBlock.faulted ∧ (∀ a ∈ faultedBlock.pending, isResetAccess a = false)
      ∧ (∃ t, Sys2Proof.core.run 1 faultedBlock = .next t) ∧ ∀ a ∈ faultedBlock.pending, writesBufByte 7 a = false :=
  ⟨rfl, by decide, ⟨_, rfl⟩, by decide⟩
theorem witness_OnlyCfgAndResetChangeIdentity :
    (∃ t, step answered = .next t) ∧
      ∀ a, answered.pending.head? = some a → a ≠ .regWrite 0x00 0x00000030#32 ∧ isResetAccess a = false :=
  ⟨⟨_, rfl⟩, by rintro a ⟨⟩; decide⟩
theorem witness_ParameterAndDrawAreFixed :
    (∃ t, step answered = .next t ∧ Memory.byteAt? t.buf 0 = none) ∧ answered.pending.head? ≠ some .hardReset :=
  ⟨⟨_, rfl, by decide⟩, by decide⟩
theorem witness_Resets :
    (block faultedRegs [] [.hardReset]).pending = [.hardReset]
      ∧ (faultedReset.pending = [.regWrite 0x08 1#32] ∧ (1#32).getLsbD 0 = true)
      ∧ ((block faultedRegs [] [.regWrite 0x08 0xFFFFFFFE#32]).pending = [.regWrite 0x08 0xFFFFFFFE#32]
        ∧ (0xFFFFFFFE#32).getLsbD 0 = false) := by decide
/-- The first and last offsets that can be read. -/
theorem witness_RegisterReadsReturnTheMap :
    ((block RegFile.reset [] [.regRead 0x00]).pending = [.regRead 0x00] ∧ 0x00 % 4 = 0 ∧ 0x00 < 0x80)
      ∧ ((block RegFile.reset [] [.regRead 0x7C]).pending = [.regRead 0x7C] ∧ 0x7C % 4 = 0 ∧ 0x7C < 0x80) := by decide
theorem witness_HostWritesStoreImplementedBits :
    (block RegFile.reset [] [.regWrite 0x0C 0x12345678#32, .regRead 0x0C]).pending = [.regWrite 0x0C 0x12345678#32, .regRead 0x0C]
      ∧ (block RegFile.reset [] [.regWrite 0x3C 0x12345678#32, .regRead 0x3C]).pending
        = [.regWrite 0x3C 0x12345678#32, .regRead 0x3C]
      ∧ (block RegFile.reset [] [.regWrite 0x04 1#32]).pending = [.regWrite 0x04 1#32]
      ∧ (block RegFile.reset [] [.regWrite 0x7C 1#32]).pending = [.regWrite 0x7C 1#32] := by decide
theorem witness_OnlyIllFormedAccessesAreRefused : answered.pending = [.regWrite 0x00 0x20#32] := rfl
theorem witness_CmdcntCountsCompletedCommands :
    (∃ t, step answered = .next t ∧ answered.pending = [.regWrite 0x00 0x20#32] ∧ ¬ t.faulted)
      ∧ (∃ t, step (commanded 0x04#32) = .next t ∧ (commanded 0x04#32).pending = [.regWrite 0x00 0x04#32] ∧ t.faulted)
      ∧ (∃ t, step faultedReset = .next t ∧ faultedReset.pending = [.regWrite 0x08 1#32]
        ∧ isResetAccess (.regWrite 0x08 1#32) = true)
      ∧ ∃ t, step (block RegFile.reset [] [.regWrite 0x0C 5#32]) = .next t
        ∧ isResetAccess (.regWrite 0x0C 5#32) = false ∧ ∀ w, Access.regWrite 0x0C 5#32 ≠ .regWrite 0x00 w :=
  ⟨⟨_, rfl, rfl, by unfold State.faulted; decide⟩, ⟨_, rfl, rfl, by unfold State.faulted; decide⟩, ⟨_, rfl, rfl, by decide⟩, _, rfl, by decide,
    by simp⟩
/-- The last byte of BUF: unwritten, written by the host, and read after a write. -/
theorem witness_BufferWriteThenRead :
    ((block RegFile.reset [] [.bufRead 255]).pending = [.bufRead 255] ∧ 255 < (block RegFile.reset [] []).cfg.bufBytes)
      ∧ (block RegFile.reset [] [.bufWrite 255 0x5A#8]).pending = [.bufWrite 255 0x5A#8]
      ∧ (block RegFile.reset [] [.bufWrite 255 0x5A#8, .bufRead 255]).pending = [.bufWrite 255 0x5A#8, .bufRead 255] := by
  decide
/-- P1: the host reads the low byte of the checksum CRCA wrote. -/
theorem test_read_of_command_output :
    ((after (Sys2Proof.core.run 2 (block (operands 0 2 2 0 0) (bytes1 0 [0x50#8, 0x00#8]) [.regWrite 0x00 0x20#32, .bufRead 2]))).map
      fun t : State => t.returned) = some [.buf 0x57#8] := by decide

end Sys2Proof.Tests
end

/-! PROOF. A host write of REG as the register map sees it: what it stores, what every later read then returns, and the
registers it cannot write (10_state.md R43, R44). -/

namespace Sys2Proof.Machine

/-! ### Steps and runs -/

/-- A run takes the next step and goes on from there. -/
theorem run_succ_of_step {s t : State} (k : Nat) (h : step s = .next t) :
    Sys2Proof.core.run (k + 1) s = Sys2Proof.core.run k t := by
  have h' : Sys2Proof.core.step s = .next t := h
  simp only [Host.Core.run, h']

/-- A write at an offset of REG reaches the register map (20_memory.md R64). -/
theorem step_regWrite {s : State} {off : Nat} {v : Word} {rest : List Access}
    (hp : s.pending = .regWrite off v :: rest) (hoff : regOffsetWellFormed off = true) :
    step s = registerWrite off v { s with pending := rest } :=
  (step_cons hp).trans (hostAccess_wellFormed (a := .regWrite off v) hoff)

/-- A read at an offset of REG is answered from the register map (20_memory.md R64, R68). -/
theorem step_regRead {s : State} {off : Nat} {rest : List Access}
    (hp : s.pending = .regRead off :: rest) (hoff : regOffsetWellFormed off = true) :
    step s = .next (State.answer { s with pending := rest } (.reg (s.regs.readOffset off))) :=
  (step_cons hp).trans (hostAccess_wellFormed (a := .regRead off) hoff)

theorem regOffsetWellFormed_regOffset (r : Reg) : regOffsetWellFormed (regOffset r) = true := by
  cases r <;> rfl

/-! ### What a register write stores -/

/-- The registers marked RW in R22. -/
def readWriteRegs : List Reg := [.src, .dst, .len, .padr, .shamt, .opaLo, .opaHi, .uid, .atqa, .sak]

/-- The implemented bits of a register marked RW (R22). -/
def implementedBits : Reg → Word
  | .src | .dst | .len | .padr | .shamt | .atqa => 0x0000FFFF#32
  | .sak => 0x000000FF#32
  | .opaLo | .opaHi | .uid => 0xFFFFFFFF#32
  | .cmd | .status | .ctrl | .resLo | .resHi | .crc | .iuid | .iatqa | .isak | .bcc | .sakcrc | .rlen | .cmdcnt => 0#32

theorem mem_readWriteRegs {r : Reg} : r ∈ readWriteRegs ↔ regAccess r = .readWrite := by
  cases r <;> decide

/-- Cutting a word to its low `n` bits and reading it zero-extended is masking it. -/
theorem setWidth_extractLsb'_eq_and (v : Word) (n : Nat) :
    (v.extractLsb' 0 n).setWidth 32 = v &&& BitVec.ofNat 32 (2 ^ n - 1) := by
  apply BitVec.eq_of_getLsbD_eq
  intro i hi
  rw [BitVec.getLsbD_setWidth, BitVec.getLsbD_extractLsb', BitVec.getLsbD_and, BitVec.getLsbD_ofNat,
    Nat.testBit_two_pow_sub_one]
  simp [hi, Bool.and_comm]

/-- An RW register reads back its implemented bits of the word written (R44). -/
theorem RegFile.read_store_same (f : RegFile) (v : Word) {r : Reg} (h : regAccess r = .readWrite) :
    (f.store v r).read r = v &&& implementedBits r := by
  cases r
  case src | dst | len | padr | shamt | atqa => exact setWidth_extractLsb'_eq_and v 16
  case sak => exact setWidth_extractLsb'_eq_and v 8
  case opaLo | opaHi | uid => exact (BitVec.and_allOnes (x := v)).symm
  all_goals cases h

/-- A store changes no other register's reading (R44). -/
theorem RegFile.read_store_ne (f : RegFile) (v : Word) {r r' : Reg} (h : r' ≠ r) :
    (f.store v r).read r' = f.read r' := by
  cases r
  case src | dst | len | padr | shamt | opaLo | opaHi | uid | atqa | sak =>
    cases r' <;> simp [RegFile.store, RegFile.read] at h ⊢
  all_goals rfl

/-- Nothing is stored in a register marked R (R44). -/
theorem RegFile.store_readOnly (f : RegFile) (v : Word) {r : Reg} (h : regAccess r = .readOnly) :
    f.store v r = f := by
  cases r <;> simp [regAccess, RegFile.store] at h ⊢

@[simp] theorem RegFile.readOffset_regOffset (f : RegFile) (r : Reg) : f.readOffset (regOffset r) = f.read r := by
  simp [RegFile.readOffset]

/-- A store leaves what every other offset reads as. -/
theorem RegFile.readOffset_store_ne (f : RegFile) (v : Word) {r : Reg} {x : Nat} (h : x ≠ regOffset r) :
    (f.store v r).readOffset x = f.readOffset x := by
  unfold RegFile.readOffset
  cases hx : regAt? x with
  | none => rfl
  | some r' =>
    have hne : r' ≠ r := by rintro rfl; exact h (regAt?_some hx).symm
    exact RegFile.read_store_ne f v hne

/-- The offsets of REG at which a write has no register to change: those marked R in R22 and the reserved ones (R43). -/
def unwritableOffsets : List Nat :=
  [0x04, 0x28, 0x2C, 0x30, 0x40, 0x44, 0x48, 0x4C, 0x50, 0x54, 0x58,
   0x5C, 0x60, 0x64, 0x68, 0x6C, 0x70, 0x74, 0x78, 0x7C]

theorem unwritableOffsets_readOnly :
    ∀ off ∈ unwritableOffsets, regOffsetWellFormed off = true ∧ ∀ r ∈ regAt? off, regAccess r = .readOnly := by
  decide

/-- A write of any register but CMD and CTRL is its store (R24, R30, R44). -/
theorem registerWrite_regOffset (v : Word) (s : State) {r : Reg} (h : regAccess r ≠ .writeOnly) :
    registerWrite (regOffset r) v s = .next { s with regs := s.regs.store v r } := by
  cases r
  case cmd | ctrl => exact absurd rfl h
  all_goals rfl

/-- A write at a reserved offset changes nothing (R43). -/
theorem registerWrite_reserved {off : Nat} (v : Word) (s : State) (h : regAt? off = none) :
    registerWrite off v s = .next s := by
  simp [registerWrite, h]

/-- A write where no register can be written changes no state (R43, R44). -/
theorem registerWrite_unwritable {off : Nat} (v : Word) (s : State)
    (h : ∀ r ∈ regAt? off, regAccess r = .readOnly) : registerWrite off v s = .next s := by
  cases hr : regAt? off with
  | none => exact registerWrite_reserved v s hr
  | some r =>
    have hro : regAccess r = .readOnly := h r hr
    rw [← regAt?_some hr, registerWrite_regOffset v s (by simp [hro]), RegFile.store_readOnly _ _ hro]

/-- A write of an RW register, read back by the host's next access (R44). -/
theorem run_write_then_read {s : State} {r : Reg} {v : Word} {rest : List Access} (h : regAccess r = .readWrite)
    (hp : s.pending = .regWrite (regOffset r) v :: .regRead (regOffset r) :: rest) :
    Sys2Proof.core.run 2 s = .next
      (State.answer { s with pending := rest, regs := s.regs.store v r } (.reg (v &&& implementedBits r))) := by
  have hw : step s = .next { s with pending := .regRead (regOffset r) :: rest, regs := s.regs.store v r } := by
    rw [step_regWrite hp (regOffsetWellFormed_regOffset r), registerWrite_regOffset _ _ (by simp [h])]
  rw [run_succ_of_step 1 hw, run_succ_of_step 0 (step_regRead rfl (regOffsetWellFormed_regOffset r)),
    RegFile.readOffset_regOffset, RegFile.read_store_same _ _ h]
  rfl

/-- Settles O57: an RW register reads back its implemented bits and no other offset reads differently; a write at an
offset without a writable register is dropped. -/
theorem hostWritesStoreImplementedBits : Obligations.HostWritesStoreImplementedBits := by
  unfold Obligations.HostWritesStoreImplementedBits
  refine ⟨fun s v rest off mask hmem hp => ?_, fun s v rest off hmem hp => ?_⟩
  · change (off, mask) ∈ readWriteRegs.map fun r => (regOffset r, implementedBits r) at hmem
    obtain ⟨r, hr, heq⟩ := List.mem_map.1 hmem
    obtain ⟨rfl, rfl⟩ := Prod.mk.inj heq
    exact ⟨_, run_write_then_read (mem_readWriteRegs.1 hr) hp, rfl, rfl, rfl, rfl, fun _ => rfl,
      fun x hx => RegFile.readOffset_store_ne s.regs v hx⟩
  · obtain ⟨hoff, hro⟩ := unwritableOffsets_readOnly off hmem
    rw [step_regWrite hp hoff, registerWrite_unwritable v _ hro]

end Sys2Proof.Machine

/-! PROOF. CMDCNT over a step (10_state.md R42): a command, a CMD write, and every other access. -/

namespace Sys2Proof.Machine

/-- CMDCNT from `s` to `t` after a CMD write: one more if `t` is not faulted, as before if it is (R42). -/
def CountsCommand (s t : State) : Prop :=
  (¬ t.faulted → t.regs.cmdcnt = s.regs.cmdcnt + 1#32) ∧ (t.faulted → t.regs.cmdcnt = s.regs.cmdcnt)

theorem countsCommand_of_faulted {s t : State} (hf : t.faulted) (hc : t.regs.cmdcnt = s.regs.cmdcnt) :
    CountsCommand s t := ⟨fun h => absurd hf h, fun _ => hc⟩

theorem raise_faulted (s : State) (c : FaultCode) : (s.raise c).faulted := rfl

/-- A command that starts counts exactly when it completes (R42, R105). -/
theorem exec_countsCommand {i : Instr} {s t : State} (hs : s.regs.status.fault = false) (h : exec i s = .next t) :
    CountsCommand s t := by
  obtain ⟨c, -, hx⟩ | ⟨-, hx⟩ := exec_cases i s <;> rw [hx] at h <;> cases h
  · exact countsCommand_of_faulted (raise_faulted s c) rfl
  · obtain ⟨hfault, -, hcnt⟩ := commandEffect_fault i s
    have hrun : ¬ (commandEffect i s).complete.faulted := by simp [State.faulted, hfault, hs]
    exact ⟨fun _ => by simp [hcnt], fun hf => absurd hf hrun⟩

/-- Every CMD write: ignored under FAULT, an illegal word, or a command (R42, R101). -/
theorem commandWrite_countsCommand {w : Word} {s t : State} (h : commandWrite w s = .next t) : CountsCommand s t := by
  obtain ⟨hf, hx⟩ | ⟨-, -, hx⟩ | ⟨hf, i, -, hx⟩ := commandWrite_cases w s <;> rw [hx] at h
  · cases h; exact countsCommand_of_faulted hf rfl
  · cases h; exact countsCommand_of_faulted (raise_faulted s .illcmd) rfl
  · exact exec_countsCommand hf h

theorem step_cmdWrite {s : State} {w : Word} {rest : List Access} (hp : s.pending = .regWrite 0x00 w :: rest) :
    step s = commandWrite w { s with pending := rest } := step_regWrite hp rfl

/-- A reset access leaves every register at its reset value (R260, R261). -/
theorem hostAccess_reset_regs {a : Access} {s t : State} (ha : isResetAccess a = true) (h : hostAccess a s = .next t) :
    t.regs = RegFile.reset := by
  cases a with
  | hardReset => cases h; rfl
  | regWrite off v =>
    obtain ⟨rfl, hv⟩ : off = 0x08 ∧ v.getLsbD 0 = true := by simpa [isResetAccess] using ha
    have hx : hostAccess (.regWrite 0x08 v) s = .next (ctrlWrite v s) := rfl
    rw [hx, ctrlWrite, if_pos hv] at h
    cases h; rfl
  | regRead _ | bufRead _ | bufWrite _ _ | otherWidth _ _ => cases ha

/-- An access that is no reset and no CMD write leaves CMDCNT (R42). -/
theorem hostAccess_keeps_cmdcnt {a : Access} {s t : State} (hreset : isResetAccess a = false)
    (hcmd : ∀ w, a ≠ .regWrite 0x00 w) (h : hostAccess a s = .next t) : t.regs.cmdcnt = s.regs.cmdcnt := by
  obtain ⟨-, rfl | ⟨v, rfl⟩ | ⟨x, b, -, -, rfl⟩ | ⟨v, r, rfl⟩ | ⟨rfl, -⟩ | ⟨v, rfl, hv, -⟩ | ⟨w, -, rfl, -⟩ |
    ⟨w, -, rfl, -⟩⟩ := hostAccess_cases h
  · rfl
  · rfl
  · rfl
  · obtain ⟨-, -, -, -, hcnt, -⟩ := store_keeps s.regs v r
    exact hcnt
  · cases hreset
  · exact absurd (hreset.symm.trans hv) Bool.false_ne_true
  · exact absurd rfl (hcmd w)
  · exact absurd rfl (hcmd w)

/-- Settles O59, from what a CMD write, a reset and every other access do to CMDCNT. -/
theorem cmdcntCountsCompletedCommands : Obligations.CmdcntCountsCompletedCommands := by
  unfold Obligations.CmdcntCountsCompletedCommands
  intro s t h
  have hcount : ∀ w rest, s.pending = .regWrite 0x00 w :: rest → CountsCommand s t := fun w rest hp =>
    commandWrite_countsCommand (s := { s with pending := rest }) (step_cmdWrite hp ▸ h)
  refine ⟨fun w rest hp => (hcount w rest hp).1, fun w rest hp => (hcount w rest hp).2, fun a rest hp ha => ?_,
    fun hother => ?_⟩
  · rw [step_cons hp] at h
    rw [hostAccess_reset_regs ha h]
    rfl
  · cases hp : s.pending with
    | nil => rw [step_nil hp] at h; cases h; rfl
    | cons a rest =>
      obtain ⟨hreset, hcmd⟩ := hother a (by simp [hp])
      rw [step_cons hp] at h
      exact hostAccess_keeps_cmdcnt (s := { s with pending := rest }) hreset hcmd h

end Sys2Proof.Machine

/-! PROOF. Every access either has a next state or is refused, and R64 tells which (20_memory.md R64). -/

namespace Sys2Proof.Machine

/-- A CMD write always has a next state: the command faults by its registers, never by stopping the model (R100, R101). -/
theorem commandWrite_next (w : Word) (s : State) : ∃ t, commandWrite w s = .next t := by
  obtain ⟨-, h⟩ | ⟨-, -, h⟩ | ⟨-, i, -, h⟩ := commandWrite_cases w s
  · exact ⟨_, h⟩
  · exact ⟨_, h⟩
  · obtain ⟨t, ht⟩ := exec_next i s
    exact ⟨t, h.trans ht⟩

/-- A register write always has a next state, at every offset. -/
theorem registerWrite_next (off : Nat) (v : Word) (s : State) : ∃ t, registerWrite off v s = .next t := by
  obtain ⟨-, h⟩ | ⟨-, h⟩ | ⟨-, -, f, h, -⟩ := registerWrite_cases off v s
  · obtain ⟨t, ht⟩ := commandWrite_next v s
    exact ⟨t, h.trans ht⟩
  · exact ⟨_, h⟩
  · exact ⟨_, h⟩

/-- An access gets a next state exactly when R64 gives it a meaning. -/
theorem hostAccess_next_iff (a : Access) (s : State) :
    (∃ t, hostAccess a s = .next t) ↔ a.wellFormed s.cfg = true := by
  refine ⟨fun ⟨t, h⟩ => (hostAccess_cases h).1, fun hw => ?_⟩
  rw [hostAccess_wellFormed hw]
  cases a with
  | regRead off => exact ⟨_, rfl⟩
  | regWrite off v => exact registerWrite_next off v s
  | bufRead addr => exact ⟨_, rfl⟩
  | bufWrite addr b => exact ⟨_, rfl⟩
  | otherWidth _ _ => cases hw
  | hardReset => exact ⟨_, rfl⟩

/-- No access stops the model but by a refusal. -/
theorem hostAccess_next_or_refused (a : Access) (s : State) :
    (∃ t, hostAccess a s = .next t) ∨ ∃ r, hostAccess a s = .refused r := by
  cases hw : a.wellFormed s.cfg with
  | true => exact .inl ((hostAccess_next_iff a s).2 hw)
  | false => exact .inr (hostAccess_illFormed hw)

theorem regOffsetWellFormed_iff (off : Nat) : regOffsetWellFormed off = true ↔ off % 4 = 0 ∧ off < 0x80 :=
  Bool.and_eq_true_iff.trans (and_congr decide_eq_true_iff decide_eq_true_iff)

/-- The well-formed accesses, listed by what the host does (R64, R260). -/
theorem accessWellFormed_iff (c : Config) (a : Access) : a.wellFormed c = true ↔
    (∃ off, (a = .regRead off ∨ ∃ v, a = .regWrite off v) ∧ off % 4 = 0 ∧ off < 0x80) ∨
    (∃ x, (a = .bufRead x ∨ ∃ b, a = .bufWrite x b) ∧ x < c.bufBytes) ∨ a = .hardReset := by
  cases a with
  | regRead off | regWrite off v => simp [Access.wellFormed, regOffsetWellFormed_iff]
  | bufRead x | bufWrite x b => simp [Access.wellFormed]
  | otherWidth _ _ | hardReset => simp [Access.wellFormed]

/-- Settles O58: a step makes the next access, which has a next state exactly when it is well-formed and is refused
otherwise. -/
theorem onlyIllFormedAccessesAreRefused : Obligations.OnlyIllFormedAccessesAreRefused := by
  unfold Obligations.OnlyIllFormedAccessesAreRefused
  intro s a rest hp
  rw [step_cons hp]
  exact ⟨(hostAccess_next_iff a _).trans (accessWellFormed_iff s.cfg a), hostAccess_next_or_refused a _⟩

end Sys2Proof.Machine

/-! PROOF. The command word read as a number (30_encoding.md R80 to R82): it decodes exactly when it is an opcode. -/

namespace Sys2Proof

theorem rsvField_encode (i : Instr) : rsvField (encode i) = 0#24 := by cases i <;> rfl

theorem opcField_encode (i : Instr) : opcField (encode i) = opcodeOf i := by cases i <;> rfl

/-- The word of a command is its opcode as a number (R80). -/
theorem encode_toNat (i : Instr) : (encode i).toNat = (opcodeOf i).toNat := by cases i <;> rfl

/-- Decoding by the two fields (R81). -/
theorem decode_eq_ok_iff_fields {w : Word} {i : Instr} :
    decode w = .ok i ↔ rsvField w = 0#24 ∧ opcField w = opcodeOf i := by
  rw [← findOpcode_eq_some]
  unfold decode
  by_cases hr : rsvField w = 0#24
  · cases hf : findOpcode (opcField w) opcodeMap <;> simp [hr]
  · simp [hr]

/-- Exactly one word encodes a command (R81). -/
theorem decode_eq_ok_iff {w : Word} {i : Instr} : decode w = .ok i ↔ w = encode i := by
  rw [decode_eq_ok_iff_fields]
  constructor
  · rintro ⟨hr, ho⟩
    rw [word_fields w, hr, ho]
    rfl
  · rintro rfl
    exact ⟨rsvField_encode i, opcField_encode i⟩

@[simp] theorem decode_encode (i : Instr) : decode (encode i) = .ok i := decode_eq_ok_iff.2 rfl

/-- Settles O1: each printed word is its command's encoding, which decodes to the command. -/
theorem commandWordsDecodeAsPrinted : Obligations.CommandWordsDecodeAsPrinted := by
  unfold Obligations.CommandWordsDecodeAsPrinted
  exact ⟨decode_encode .nop, decode_encode .par, decode_encode .parbuf, decode_encode .parchk, decode_encode .mir8,
    decode_encode .mirbuf, decode_encode .mir32, decode_encode .mir64, decode_encode .swp32, decode_encode .swp64,
    decode_encode .crca, decode_encode .crcv, decode_encode .cfg, decode_encode .classify, decode_encode .handle,
    decode_encode .bpack, decode_encode .bshr, decode_encode .bshl, decode_encode .wrap, decode_encode .unwrap⟩

/-- The opcodes of R82 as numbers. -/
def assignedOpcodes : List Nat := opcodeMap.map fun p => p.1.toNat

theorem mem_assignedOpcodes {n : Nat} : n ∈ assignedOpcodes ↔ ∃ i, n = (opcodeOf i).toNat := by
  unfold assignedOpcodes
  constructor
  · intro h
    obtain ⟨p, hp, rfl⟩ := List.mem_map.1 h
    exact ⟨p.2, congrArg BitVec.toNat (opcodeMap_opcodeOf p hp)⟩
  · rintro ⟨i, rfl⟩
    exact List.mem_map.2 ⟨_, findOpcode_mem (findOpcode_opcodeOf i), rfl⟩

/-- A word decodes to no command exactly when its number is no opcode (R81, R82). -/
theorem forall_decode_ne_ok_iff (w : Word) : (∀ i, decode w ≠ .ok i) ↔ w.toNat ∉ assignedOpcodes := by
  simp only [mem_assignedOpcodes, not_exists, ne_eq, decode_eq_ok_iff, ← BitVec.toNat_inj, encode_toNat]

/-- The numbers that are no opcode: the gaps R85 lists, and everything that needs more than eight bits. -/
theorem not_mem_assignedOpcodes_iff (n : Nat) : n ∉ assignedOpcodes ↔
    256 ≤ n ∨ (0x04 ≤ n ∧ n ≤ 0x0F) ∨ (0x14 ≤ n ∧ n ≤ 0x17) ∨ (0x1A ≤ n ∧ n ≤ 0x1F) ∨ (0x22 ≤ n ∧ n ≤ 0x2F)
      ∨ (0x33 ≤ n ∧ n ≤ 0x3F) ∨ (0x45 ≤ n ∧ n ≤ 0xFF) := by
  have hopcodes : assignedOpcodes = [0x00, 0x01, 0x02, 0x03, 0x10, 0x11, 0x12, 0x13, 0x18, 0x19, 0x20, 0x21,
    0x30, 0x31, 0x32, 0x40, 0x41, 0x42, 0x43, 0x44] := rfl
  simp only [hopcodes, List.mem_cons, List.not_mem_nil, or_false]
  omega

end Sys2Proof

/-! PROOF. Illegal command words fault ILLCMD, and only NOP merely counts (30_encoding.md R85, 40_command_cycle.md R106). -/

namespace Sys2Proof.Machine

/-- An illegal word raises ILLCMD on an unfaulted block (R81, R100). -/
theorem commandWrite_illegal {w : Word} {s : State} (hs : s.regs.status.fault = false) (hw : ∀ i, decode w ≠ .ok i) :
    commandWrite w s = .next (s.raise .illcmd) := by
  obtain ⟨hf, -⟩ | ⟨-, -, hx⟩ | ⟨-, i, hi, -⟩ := commandWrite_cases w s
  · simp [hs] at hf
  · exact hx
  · exact absurd hi (hw i)

/-- On an unfaulted block a command that only counts passed its checks and had no effect of its own (R105). -/
theorem commandEffect_complete_of_onlyCounts {i : Instr} {s : State} (hs : s.regs.status.fault = false)
    (h : exec i s = .next s.complete) :
    firstFailure (commandChecks i s) = none ∧ (commandEffect i s).complete = s.complete := by
  obtain ⟨c, -, hx⟩ | ⟨hnone, hx⟩ := exec_cases i s <;> have heq := Host.Outcome.next.inj (hx.symm.trans h)
  · have hfault : true = s.regs.status.fault := congrArg (fun t : State => t.regs.status.fault) heq
    simp [hs] at hfault
  · exact ⟨hnone, heq⟩

/-- A block in which every command but NOP shows itself: two bytes at SRC lie outside every BUF, RES holds what no command
computes from the other registers, and CFG has not run. -/
def revealingBlock : State :=
  { State.reset with
    regs := { RegFile.reset with src := 0xFFFF#16, len := 16#16, res := 0xFFFFFFFFFFFFFFFF#64 } }

/-- HANDLE faults NOCFG and a command with an operand in BUF faults RANGE; CFG sets CFG_VALID and the others write RES. -/
theorem revealingBlock_reveals {i : Instr} (hi : i ≠ .nop) :
    firstFailure (commandChecks i revealingBlock) ≠ none ∨
      (commandEffect i revealingBlock).complete ≠ revealingBlock.complete := by
  cases i
  case nop => exact absurd rfl hi
  case par | mir8 | mir32 | mir64 | cfg | classify | bpack => exact .inr (by decide)
  case parbuf | parchk | mirbuf | swp32 | swp64 | crca | crcv | handle | bshr | bshl | wrap | unwrap =>
    exact .inl (by decide)

/-- NOP is the one command that only counts in every state (R85, R106). -/
theorem eq_nop_iff_onlyCounts (i : Instr) : i = .nop ↔ ∀ s : State, exec i s = .next s.complete := by
  constructor
  · rintro rfl s
    rfl
  · intro h
    by_contra hi
    obtain ⟨hnone, hself⟩ := commandEffect_complete_of_onlyCounts (s := revealingBlock) rfl (h revealingBlock)
    exact (revealingBlock_reveals hi).elim (absurd hnone) (absurd hself)

/-- Settles O3: the illegal words are the complement of the opcode map, a CMD write of one raises ILLCMD, and one block
tells every other command from NOP. -/
theorem illegalWordsAreTheReservedOnes : Obligations.IllegalWordsAreTheReservedOnes := by
  unfold Obligations.IllegalWordsAreTheReservedOnes
  refine ⟨fun w => ⟨?_, fun s rest hp hs hw => ?_⟩, eq_nop_iff_onlyCounts⟩
  · rw [forall_decode_ne_ok_iff, not_mem_assignedOpcodes_iff]
  · rw [step_cmdWrite hp, commandWrite_illegal (s := { s with pending := rest }) hs hw]
    exact faultsWith_raise _ _

end Sys2Proof.Machine

/-! PROOF. Host programs as their bus accesses (30_encoding.md R87 to R89). -/

namespace Sys2Proof.Machine

@[simp] theorem hostProgram_singleton (op : HostOp) : hostProgram [op] = op.accesses := List.flatMap_singleton ..

/-- A program is its lines' accesses in order (R89). -/
theorem hostProgram_append (ops ops' : List HostOp) :
    hostProgram (ops ++ ops') = hostProgram ops ++ hostProgram ops' := List.flatMap_append

/-- `wr` and `rd` are one access at the register's offset (R87). -/
theorem hostProgram_wr_rd {r : Reg} {off : Nat} (h : regOffset r = off) :
    (∀ v, hostProgram [.wr r v] = [.regWrite off v]) ∧ hostProgram [.rd r] = [.regRead off] := by
  subst h
  exact ⟨fun _ => rfl, rfl⟩

/-- The byte writes of `wb` by position (R87). -/
theorem byteWrites_eq_map_range (bs : List Byte) (a : Nat) :
    byteWrites a bs = (List.range bs.length).map fun k => .bufWrite (a + k) (bs.getD k 0#8) := by
  induction bs generalizing a with
  | nil => rfl
  | cons b bs ih =>
    simp [byteWrites, ih, List.range_succ_eq_map, Nat.add_assoc, Nat.add_comm 1]

/-- `ld` is the program of its pairs' `wr` lines (R88). -/
theorem hostProgram_map_wr (rs : List (Reg × Word)) :
    hostProgram (rs.map fun p => .wr p.1 p.2) = HostOp.accesses (.ld rs) :=
  (List.flatMap_map ..).trans List.map_eq_flatMap.symm

/-- Settles O4, line by line: the offsets of R22, `wb` by position, and `ld` pair by pair. -/
theorem pseudoInstructionsExpand : Obligations.PseudoInstructionsExpand := by
  unfold Obligations.PseudoInstructionsExpand
  refine ⟨fun p hp => hostProgram_wr_rd ((by decide : ∀ q ∈ _, regOffset q.1 = q.2) p hp), fun a bs => ?_,
    fun _ _ => hostProgram_singleton _, hostProgram_append, fun _ => rfl, rfl, fun rs => ?_⟩
  · rw [hostProgram_singleton]
    exact byteWrites_eq_map_range bs a
  · rw [hostProgram_map_wr, hostProgram_singleton]

end Sys2Proof.Machine

/-! PROOF. The fault state in the command cycle, and NOP (40_command_cycle.md R101, R106): a faulted block ignores CMD, no
access but a reset lifts the state, and a reset always does. -/

namespace Sys2Proof.Machine

theorem commandWrite_of_faulted {s : State} (w : Word) (hs : s.faulted) : commandWrite w s = .next s := if_pos hs

/-- While FAULT = 1 a CMD write takes its access off the host's list and does nothing else (R101). -/
theorem step_cmdWrite_of_faulted {s : State} {w : Word} {rest : List Access} (hp : s.pending = .regWrite 0x00 w :: rest)
    (hs : s.faulted) : step s = .next { s with pending := rest } :=
  (step_cmdWrite hp).trans (commandWrite_of_faulted (s := { s with pending := rest }) w hs)

/-- On a faulted block an access that is no reset leaves STATUS, so FAULT and FCODE with it: every command that could write
STATUS is ignored (R101, R238). -/
theorem hostAccess_keeps_status_of_faulted {a : Access} {s t : State} (hs : s.faulted) (ha : isResetAccess a = false)
    (h : hostAccess a s = .next t) : t.regs.status = s.regs.status := by
  have hstarts : s.regs.status.fault ≠ false := ne_false_of_eq_true hs
  obtain ⟨-, rfl | ⟨v, rfl⟩ | ⟨x, b, -, -, rfl⟩ | ⟨v, r, rfl⟩ | ⟨rfl, -⟩ | ⟨v, rfl, hv, -⟩ | ⟨w, e, -, hf, -⟩ |
    ⟨w, i, -, hf, -⟩⟩ := hostAccess_cases h
  · rfl
  · rfl
  · rfl
  · exact (store_keeps s.regs v r).1
  · cases ha
  · exact absurd (ha.symm.trans hv) Bool.false_ne_true
  · exact absurd hf hstarts
  · exact absurd hf hstarts

theorem step_keeps_status_of_faulted {s t : State} (hs : s.faulted) (h : step s = .next t)
    (hreset : ∀ a, s.pending.head? = some a → isResetAccess a = false) : t.regs.status = s.regs.status := by
  cases hp : s.pending with
  | nil => rw [step_nil hp] at h; cases h; rfl
  | cons a rest =>
    rw [step_cons hp] at h
    exact hostAccess_keeps_status_of_faulted (s := { s with pending := rest }) hs (hreset a (by simp [hp])) h

/-- A reset is never refused (R64, R260). -/
theorem wellFormed_of_isResetAccess {a : Access} (c : Config) (ha : isResetAccess a = true) : a.wellFormed c = true := by
  cases a with
  | hardReset => rfl
  | regWrite off v =>
    obtain ⟨rfl, -⟩ : off = 0x08 ∧ v.getLsbD 0 = true := by simpa [isResetAccess] using ha
    rfl
  | regRead _ | bufRead _ | bufWrite _ _ | otherWidth _ _ => cases ha

/-- A reset access is made in every state and leaves the registers at their reset values (R260, R261). -/
theorem step_reset {s : State} {a : Access} {rest : List Access} (hp : s.pending = a :: rest)
    (ha : isResetAccess a = true) : ∃ t, step s = .next t ∧ t.regs = RegFile.reset := by
  obtain ⟨t, ht⟩ := (hostAccess_next_iff a { s with pending := rest }).2 (wellFormed_of_isResetAccess _ ha)
  exact ⟨t, (step_cons hp).trans ht, hostAccess_reset_regs ha ht⟩

/-- Settles O6: a faulted block ignores a CMD write, keeps STATUS over every access that is no reset, and a reset gives
FAULT and FCODE their reset values. -/
theorem faultedBlockIgnoresCommands : Obligations.FaultedBlockIgnoresCommands := by
  unfold Obligations.FaultedBlockIgnoresCommands
  refine ⟨fun s w rest hp hs => step_cmdWrite_of_faulted hp hs, fun s t hs h hreset => ?_, fun s a rest hp ha => ?_⟩
  · have hstatus := step_keeps_status_of_faulted hs h hreset
    exact (congrArg Status.fault hstatus).trans hs
  · obtain ⟨t, ht, hregs⟩ := step_reset hp ha
    have hstatus : t.regs.status = Status.reset := congrArg RegFile.status hregs
    have hfault : t.regs.status.fault = false := congrArg Status.fault hstatus
    exact ⟨t, ht, ne_true_of_eq_false hfault, congrArg Status.fcode hstatus⟩

/-- Settles O10: the word 0 is NOP's encoding, NOP has no effect of its own to complete, and a faulted block ignores it
like every command. -/
theorem nopOnlyCounts : Obligations.NopOnlyCounts := by
  unfold Obligations.NopOnlyCounts
  have hencode : encode .nop = 0x00000000#32 := rfl
  refine ⟨fun w => hencode ▸ decode_eq_ok_iff, fun s => ?_, fun s rest hp hs => step_cmdWrite_of_faulted hp hs⟩
  exact (eq_nop_iff_onlyCounts .nop).1 rfl s

end Sys2Proof.Machine

/-! PROOF. Parity (41_parity.md R120 to R126): the ROM bit as the population count says it, and the three parity commands. -/

namespace Sys2Proof.Machine

/-! ### Commands with RANGE checks only -/

theorem exec_of_rangesFit {i : Instr} {s : State} (hc : ∀ p ∈ commandChecks i s, p.2 = .range) (h : rangesFit i s) :
    exec i s = .next (commandEffect i s).complete :=
  exec_pass i s fun p hp => (rangeChecks_iff i s).2 h p hp (hc p hp)

theorem exec_range_of_not_rangesFit {i : Instr} {s : State} (hc : ∀ p ∈ commandChecks i s, p.2 = .range)
    (h : ¬ rangesFit i s) : FaultsWith (exec i s) s .range := by
  rw [exec_eq_runCommand]
  exact runCommand_range _ s hc fun hpass => h ((rangeChecks_iff i s).1 fun p hp _ => hpass p hp)

/-! ### Bytes written by position -/

theorem State.memWrite_map_range_byte (s : State) (a : Nat) {n k : Nat} (f : Nat → Byte) (hk : k < n) :
    (s.memWrite a ((List.range n).map f)).byte (a + k) = f k := by
  rw [State.memWrite_byte_add s a _ k (by simpa using hk)]
  simp [List.getD_eq_getElem?_getD, hk]

theorem State.memWrite_map_range_sameBytesExcept (s : State) (a n : Nat) (f : Nat → Byte) :
    SameBytesExcept s (s.memWrite a ((List.range n).map f)) a n :=
  fun x hx => State.memWrite_byte_outside s a _ x (by simpa using hx)

/-! ### The parity bit, its slot, and a mismatch -/

/-- The parity bit as PAR puts it into RES (R123). -/
theorem setWidth_par (w : Nat) (b : Byte) : (par b).setWidth w = if setBits b % 2 = 0 then 1#w else 0#w := by
  rw [par_eq]
  split_ifs
  · exact BitVec.eq_of_toNat_eq (by simp)
  · exact BitVec.setWidth_zero ..

/-- The slot PARBUF writes for a byte (R122, R124). -/
theorem slotOf_par (b : Byte) : slotOf (par b) = if setBits b % 2 = 0 then 0x01#8 else 0x00#8 := setWidth_par 8 b

theorem slotOf_ofBool (m : Bool) : slotOf (BitVec.ofBool m) = if m then 0x01#8 else 0x00#8 := by cases m <;> rfl

theorem slotBit_eq_ofBool (slot : Byte) : slotBit slot = BitVec.ofBool (slot.getLsbD 0) := by
  ext i hi
  simp [slotBit, show i = 0 by omega]

theorem par_eq_ofBool (b : Byte) : par b = BitVec.ofBool (decide (setBits b % 2 = 0)) := by
  rw [par_eq]
  split_ifs with h <;> simp [h]

/-- A mismatch against the ROM is a disagreement with the population count (R120, R125). -/
theorem parityMismatch_eq_slotDisagrees (b slot : Byte) : parityMismatch b slot = slotDisagrees b slot := by
  rw [parityMismatch, slotBit_eq_ofBool, par_eq_ofBool, slotDisagrees]
  cases slot.getLsbD 0 <;> cases decide (setBits b % 2 = 0) <;> rfl

/-! ### PAR -/

/-- Settles O11: PAR has no check, and the ROM bit it puts into RES is the odd parity of OPA[7:0]. -/
theorem parGivesOddParity : Obligations.ParGivesOddParity := by
  unfold Obligations.ParGivesOddParity
  refine ⟨decode_encode .par, fun s => ?_⟩
  rw [← State.opaByte_eq, ← setWidth_par]
  rfl

/-! ### PARBUF -/

theorem parbuf_rangesFit_iff (s : State) : rangesFit .parbuf s ↔
    InBuf s.cfg s.regs.src.toNat s.regs.len.toNat ∧ InBuf s.cfg s.regs.padr.toNat s.regs.len.toNat := by
  simp [rangesFit, inputRanges, outputRanges]

theorem parbuf_checks_range (s : State) : ∀ p ∈ commandChecks .parbuf s, p.2 = .range := by simp [commandChecks]

/-- The slots by position (R124). -/
theorem parbufSlots_eq_map_range (s : State) : parbufSlots s = (List.range s.regs.len.toNat).map fun k =>
    if setBits (s.byte (s.regs.src.toNat + k)) % 2 = 0 then 0x01#8 else 0x00#8 := by
  simp [parbufSlots, State.memRead, slotOf_par, Function.comp_def]

/-- Settles O12: with both ranges in BUF the effect is one memory write of the slots, by position; otherwise a RANGE check
fails. -/
theorem parbufWritesParitySlots : Obligations.ParbufWritesParitySlots := by
  unfold Obligations.ParbufWritesParitySlots
  refine ⟨decode_encode .parbuf, fun s => ⟨fun hsrc hpadr => ?_, fun hout => ?_⟩⟩
  · have hexec := exec_of_rangesFit (parbuf_checks_range s) ((parbuf_rangesFit_iff s).2 ⟨hsrc, hpadr⟩)
    refine ⟨_, hexec, commandEffect_sameOutside .parbuf s, rfl, fun k hk => ?_, ?_⟩
    · rw [State.complete_byte, commandEffect, parbufSlots_eq_map_range]
      exact State.memWrite_map_range_byte s _ _ hk
    · rw [commandEffect, parbufSlots_eq_map_range]
      exact State.memWrite_map_range_sameBytesExcept s _ _ _
  · exact exec_range_of_not_rangesFit (parbuf_checks_range s) (mt (parbuf_rangesFit_iff s).1 hout)

/-! ### PARCHK -/

theorem parchk_rangesFit_iff (s : State) : rangesFit .parchk s ↔
    InBuf s.cfg s.regs.src.toNat s.regs.len.toNat ∧ InBuf s.cfg s.regs.padr.toNat s.regs.len.toNat
      ∧ InBuf s.cfg s.regs.dst.toNat s.regs.len.toNat := by
  simp [rangesFit, inputRanges, outputRanges, and_assoc]

theorem parchk_checks_range (s : State) : ∀ p ∈ commandChecks .parchk s, p.2 = .range := by simp [commandChecks]

/-- `m[k]` of R126: the slot at PADR + k disagrees with the byte at SRC + k. -/
def slotDisagreesAt (s : State) (k : Nat) : Bool :=
  slotDisagrees (s.byte (s.regs.src.toNat + k)) (s.byte (s.regs.padr.toNat + k))

theorem parchkFlags_eq_map_range (s : State) : parchkFlags s = (List.range s.regs.len.toNat).map (slotDisagreesAt s) :=
  List.map_congr_left fun _ _ => parityMismatch_eq_slotDisagrees _ _

theorem parchkCount_eq_countP (s : State) :
    parchkCount s = (List.range s.regs.len.toNat).countP (slotDisagreesAt s) := by
  rw [parchkCount, parchkFlags_eq_map_range, List.count_eq_countP, List.countP_map]
  exact List.countP_congr fun k _ => by simp

/-- MISM is set exactly when there is a mismatch (R126). -/
theorem parchkCount_ne_zero_iff (s : State) :
    parchkCount s ≠ 0 ↔ ∃ k, k < s.regs.len.toNat ∧ slotDisagreesAt s k = true := by
  simp [parchkCount_eq_countP]

/-- The flag bytes by position (R126). -/
theorem parchkFlagBytes_eq_map_range (s : State) : ((parchkFlags s).map fun m => slotOf (BitVec.ofBool m)) =
    (List.range s.regs.len.toNat).map fun k => if slotDisagreesAt s k then 0x01#8 else 0x00#8 := by
  simp [parchkFlags_eq_map_range, slotOf_ofBool, Function.comp_def]

theorem parchkEffect_byte (s : State) (x : Nat) : (commandEffect .parchk s).complete.byte x =
    (s.memWrite s.regs.dst.toNat
      ((List.range s.regs.len.toNat).map fun k => if slotDisagreesAt s k then 0x01#8 else 0x00#8)).byte x := by
  rw [← parchkFlagBytes_eq_map_range]
  rfl

/-- Settles O13: with its ranges in BUF the effect is the flag bytes by position, their number in RES and whether it is
nonzero in MISM; otherwise a RANGE check fails. -/
theorem parchkFlagsMismatches : Obligations.ParchkFlagsMismatches := by
  unfold Obligations.ParchkFlagsMismatches
  refine ⟨decode_encode .parchk, fun s => ⟨fun hsrc hpadr hdst => ?_, fun hout => ?_⟩⟩
  · have hexec := exec_of_rangesFit (parchk_checks_range s) ((parchk_rangesFit_iff s).2 ⟨hsrc, hpadr, hdst⟩)
    refine ⟨_, hexec, commandEffect_sameOutside .parchk s, ?_, ?_, fun k hk => ?_, fun x hx => ?_⟩
    · have hcount := parchkCount_eq_countP s
      unfold slotDisagreesAt at hcount
      rw [← hcount]
      rfl
    · exact decide_eq_true_iff.trans (parchkCount_ne_zero_iff s)
    · rw [parchkEffect_byte]
      exact State.memWrite_map_range_byte s _ _ hk
    · rw [parchkEffect_byte]
      exact State.memWrite_map_range_sameBytesExcept s _ _ _ x hx
  · exact exec_range_of_not_rangesFit (parchk_checks_range s) (mt (parchk_rangesFit_iff s).1 hout)

end Sys2Proof.Machine

/-! PROOF. The mirror and endian-swap unit (42_mirror_swap.md R140 to R150): lane laws from the value's bits, then the
commands. -/

namespace Sys2Proof.Machine

/-! ### Byte lanes from bits -/

/-- A value is its byte lanes. -/
theorem eq_of_lanes_eq {w n : Nat} {x y : BitVec w} (hw : w ≤ 8 * n) (h : ∀ k, k < n → lane x k = lane y k) : x = y := by
  refine BitVec.eq_of_getLsbD_eq fun i hi => ?_
  have hbit := congrArg (BitVec.getLsbD · (i % 8)) (h (i / 8) (by omega))
  simpa only [lane_getLsbD, Nat.mod_lt i (by decide : 0 < 8), decide_true, Bool.true_and, Nat.div_add_mod] using hbit

/-- A value whose bits are those of `x` reversed within each byte has the mirrored lanes of `x`, in place (R144, R146). -/
theorem lane_eq_mir_lane {w n : Nat} {x y : BitVec w}
    (hbits : ∀ i, i < 8 * n → y.getLsbD i = x.getLsbD (8 * (i / 8) + (7 - i % 8))) {k : Nat} (hk : k < n) :
    lane y k = mir (lane x k) := by
  refine BitVec.eq_of_getLsbD_eq fun j hj => ?_
  have hbit := hbits (8 * k + j) (by omega)
  rw [show (8 * k + j) / 8 = k by omega, show (8 * k + j) % 8 = j by omega] at hbit
  simp only [lane_getLsbD, mir_getLsbD, hbit, hj, show 7 - j < 8 by omega, decide_true, Bool.true_and]

/-- A value whose bytes are those of `x` in the other order has the lanes of `x`, each unchanged, counted from the other
end (R150). -/
theorem lane_eq_lane_sub {w n : Nat} {x y : BitVec w}
    (hbits : ∀ i, i < 8 * n → y.getLsbD i = x.getLsbD (8 * (n - 1 - i / 8) + i % 8)) {k : Nat} (hk : k < n) :
    lane y k = lane x (n - 1 - k) := by
  refine BitVec.eq_of_getLsbD_eq fun j hj => ?_
  have hbit := hbits (8 * k + j) (by omega)
  rw [show (8 * k + j) / 8 = k by omega, show (8 * k + j) % 8 = j by omega] at hbit
  simp only [lane_getLsbD, hbit, hj, decide_true, Bool.true_and]

theorem lane_mir32 (x : Word) {k : Nat} (hk : k < 4) : lane (mir32 x) k = mir (lane x k) :=
  lane_eq_mir_lane (fun i hi => by rw [mir32_getLsbD, decide_eq_true (show i < 32 from hi), Bool.true_and]) hk

theorem lane_mir64 (x : DWord) {k : Nat} (hk : k < 8) : lane (mir64 x) k = mir (lane x k) :=
  lane_eq_mir_lane (fun i hi => by rw [mir64_getLsbD, decide_eq_true (show i < 64 from hi), Bool.true_and]) hk

theorem lane_swap32 (x : Word) {k : Nat} (hk : k < 4) : lane (swap32 x) k = lane x (3 - k) :=
  lane_eq_lane_sub (fun i hi => by rw [swap32_getLsbD, decide_eq_true (show i < 32 from hi), Bool.true_and]) hk

theorem lane_swap64 (x : DWord) {k : Nat} (hk : k < 8) : lane (swap64 x) k = lane x (7 - k) :=
  lane_eq_lane_sub (fun i hi => by rw [swap64_getLsbD, decide_eq_true (show i < 64 from hi), Bool.true_and]) hk

theorem swap32_swap32 (x : Word) : swap32 (swap32 x) = x :=
  eq_of_lanes_eq (n := 4) le_rfl fun k hk => by
    rw [lane_swap32 _ hk, lane_swap32 _ (by omega), show 3 - (3 - k) = k by omega]

theorem swap64_swap64 (x : DWord) : swap64 (swap64 x) = x :=
  eq_of_lanes_eq (n := 8) le_rfl fun k hk => by
    rw [lane_swap64 _ hk, lane_swap64 _ (by omega), show 7 - (7 - k) = k by omega]

/-- Settles O21: the lane laws, and each swap moves a lane to the other end and back. -/
theorem mirrorAndSwapActOnByteLanes : Obligations.MirrorAndSwapActOnByteLanes := by
  unfold Obligations.MirrorAndSwapActOnByteLanes
  exact ⟨fun x k hk => ⟨lane_mir32 x hk, lane_swap32 x hk⟩, fun x k hk => ⟨lane_mir64 x hk, lane_swap64 x hk⟩,
    swap32_swap32, swap64_swap64⟩

/-! ### MIR8, MIR32 and MIR64 -/

/-- Zero-extension into RES keeps every bit and adds zeros (R35). -/
theorem getLsbD_setWidth_res {w : Nat} (hw : w ≤ 64) (x : BitVec w) (i : Nat) :
    (x.setWidth 64 : DWord).getLsbD i = x.getLsbD i := by
  rw [BitVec.getLsbD_setWidth]
  by_cases hi : i < 64
  · simp [hi]
  · simp [hi, BitVec.getLsbD_of_ge x i (by omega)]

theorem mir_opaByte_getLsbD (s : State) (i : Nat) :
    (mir s.opaByte).getLsbD i = (decide (i < 8) && s.regs.opaLo.getLsbD (7 - i)) := by
  rw [mir_getLsbD, State.opaByte_eq, BitVec.getLsbD_extractLsb']
  simp [show 7 - i < 8 by omega]

/-- Settles O14: MIR8 has no check, and the ROM entry it puts into RES is OPA[7:0] reversed. -/
theorem mirEightReversesByte : Obligations.MirEightReversesByte := by
  unfold Obligations.MirEightReversesByte
  refine ⟨decode_encode .mir8, fun s => ⟨(mir s.opaByte).setWidth 64, rfl, fun i => ?_⟩⟩
  rw [getLsbD_setWidth_res (by decide), mir_opaByte_getLsbD]

/-- Settles O15: MIR32 has no check, and its value is OPA[31:0] reversed byte by byte. -/
theorem mirThirtyTwoReversesEachByte : Obligations.MirThirtyTwoReversesEachByte := by
  unfold Obligations.MirThirtyTwoReversesEachByte
  refine ⟨decode_encode .mir32, fun s => ⟨(mir32 s.opaWord).setWidth 64, rfl, fun i => ?_⟩⟩
  rw [getLsbD_setWidth_res (by decide), mir32_getLsbD, State.opaWord_eq]

/-- Settles O16: MIR64 has no check, and reversing within a byte keeps a bit in its half of OPA. -/
theorem mirSixtyFourReversesEachByte : Obligations.MirSixtyFourReversesEachByte := by
  unfold Obligations.MirSixtyFourReversesEachByte
  refine ⟨decode_encode .mir64, fun s => ⟨mir64 s.opa, rfl, fun i hi => ?_⟩⟩
  have hhalf : 8 * (i / 8) + (7 - i % 8) < 32 ↔ i < 32 := by omega
  rw [mir64_getLsbD, State.opa_getLsbD]
  simp only [hi, hhalf, decide_true, Bool.true_and]

/-! ### Commands whose one check is a range -/

theorem exec_of_inBuf {i : Instr} {s : State} {a n : Nat} (hc : commandChecks i s = [(validRange s.cfg a n, .range)])
    (h : InBuf s.cfg a n) : exec i s = .next (commandEffect i s).complete :=
  exec_pass i s (by simp [hc, h])

theorem exec_range_of_not_inBuf {i : Instr} {s : State} {a n : Nat}
    (hc : commandChecks i s = [(validRange s.cfg a n, .range)]) (h : ¬ InBuf s.cfg a n) :
    FaultsWith (exec i s) s .range :=
  exec_fault (by rw [hc, (validRange_eq_false_iff _ _ _).2 h]; rfl)

/-! ### MIRBUF -/

/-- What every BUF address reads as after the write of MIRBUF (R143). -/
theorem mirbufEffect_byte (s : State) (x : Nat) : (commandEffect .mirbuf s).byte x =
    if s.regs.src.toNat ≤ x ∧ x < s.regs.src.toNat + s.regs.len.toNat then mir (s.byte x) else s.byte x := by
  rw [commandEffect, State.memWrite_byte, List.length_map, State.memRead_length]
  refine ite_congr rfl (fun hx => ?_) fun _ => rfl
  have hk : x - s.regs.src.toNat < s.regs.len.toNat := Nat.sub_lt_left_of_lt_add hx.1 hx.2
  rw [show (0#8 : Byte) = mir 0#8 from rfl, List.getD_map, State.memRead_getD _ _ _ _ _ hk, Nat.add_sub_cancel' hx.1]

/-- A MIRBUF whose range is in BUF counts, mirrors the bytes of that range and keeps everything else (R143). -/
theorem exec_mirbuf_of_inBuf {s : State} (h : InBuf s.cfg s.regs.src.toNat s.regs.len.toNat) :
    ∃ t, exec .mirbuf s = .next t ∧ SameOutside s t ∧ t.regs = { s.regs with cmdcnt := s.regs.cmdcnt + 1#32 } ∧
      ∀ x, t.byte x =
        if s.regs.src.toNat ≤ x ∧ x < s.regs.src.toNat + s.regs.len.toNat then mir (s.byte x) else s.byte x :=
  ⟨_, exec_of_inBuf rfl h, commandEffect_sameOutside .mirbuf s, rfl, mirbufEffect_byte s⟩

/-- Settles O17: with the range in BUF each byte of it is mirrored where it stands; otherwise the RANGE check fails. -/
theorem mirbufReversesBytesInPlace : Obligations.MirbufReversesBytesInPlace := by
  unfold Obligations.MirbufReversesBytesInPlace
  refine ⟨decode_encode .mirbuf, fun s => ⟨fun hin => ?_, exec_range_of_not_inBuf rfl⟩⟩
  obtain ⟨t, ht, houtside, hregs, hbyte⟩ := exec_mirbuf_of_inBuf hin
  refine ⟨t, ht, houtside, hregs, fun k j hk hj => ?_, fun x hx => ?_⟩
  · rw [hbyte, if_pos (by omega), mir_getLsbD, decide_eq_true hj, Bool.true_and]
  · rw [hbyte, if_neg (by omega)]

/-- Settles O18: the second MIRBUF finds SRC and LEN as the first did, so it mirrors the same bytes back. -/
theorem mirroringTwiceRestores : Obligations.MirroringTwiceRestores := by
  unfold Obligations.MirroringTwiceRestores
  refine ⟨mir_mir, fun s hin => ?_⟩
  obtain ⟨t, ht, ⟨hcfg, -⟩, hregs, htbyte⟩ := exec_mirbuf_of_inBuf hin
  obtain ⟨u, hu, -, -, hubyte⟩ := exec_mirbuf_of_inBuf (s := t) (by rw [hcfg, hregs]; exact hin)
  refine ⟨t, u, ht, hu, fun x => ?_⟩
  rw [hubyte, htbyte, hregs]
  split_ifs
  · exact mir_mir _
  · rfl

/-! ### SWP32 and SWP64 -/

/-- Swapping the little-endian reading of four bytes is their big-endian reading (R148). -/
theorem swap32_littleEndian32_getLsbD (s : State) (a i : Nat) : (swap32 (s.littleEndian32 a)).getLsbD i =
    (decide (i < 32) && (s.byte (a + (3 - i / 8))).getLsbD (i % 8)) := by
  rw [swap32_getLsbD, State.littleEndian32_getLsbD, show (8 * (3 - i / 8) + i % 8) / 8 = 3 - i / 8 by omega,
    show (8 * (3 - i / 8) + i % 8) % 8 = i % 8 by omega, decide_eq_true (by omega : 8 * (3 - i / 8) + i % 8 < 32),
    Bool.true_and]

/-- Swapping the little-endian reading of eight bytes is their big-endian reading (R149). -/
theorem swap64_littleEndian64_getLsbD (s : State) (a i : Nat) : (swap64 (s.littleEndian64 a)).getLsbD i =
    (decide (i < 64) && (s.byte (a + (7 - i / 8))).getLsbD (i % 8)) := by
  rw [swap64_getLsbD, State.littleEndian64_getLsbD, show (8 * (7 - i / 8) + i % 8) / 8 = 7 - i / 8 by omega,
    show (8 * (7 - i / 8) + i % 8) % 8 = i % 8 by omega, decide_eq_true (by omega : 8 * (7 - i / 8) + i % 8 < 64),
    Bool.true_and]

/-- Settles O19: with its four bytes in BUF SWP32 puts their big-endian reading into RES; otherwise the RANGE check
fails. -/
theorem swpThirtyTwoReversesBytes : Obligations.SwpThirtyTwoReversesBytes := by
  unfold Obligations.SwpThirtyTwoReversesBytes
  refine ⟨decode_encode .swp32, fun s => ⟨fun hin => ?_, exec_range_of_not_inBuf rfl⟩⟩
  refine ⟨(swap32 (s.littleEndian32 s.srcAddr)).setWidth 64, exec_of_inBuf rfl hin, fun i => ?_⟩
  rw [getLsbD_setWidth_res (by decide), swap32_littleEndian32_getLsbD]

/-- Settles O20: with its eight bytes in BUF SWP64 puts their big-endian reading into RES; otherwise the RANGE check
fails. -/
theorem swpSixtyFourReversesBytes : Obligations.SwpSixtyFourReversesBytes := by
  unfold Obligations.SwpSixtyFourReversesBytes
  refine ⟨decode_encode .swp64, fun s => ⟨fun hin => ?_, exec_range_of_not_inBuf rfl⟩⟩
  refine ⟨swap64 (s.littleEndian64 s.srcAddr), exec_of_inBuf rfl hin, fun i hi => ?_⟩
  rw [swap64_littleEndian64_getLsbD, decide_eq_true hi, Bool.true_and]

end Sys2Proof.Machine

/-! PROOF. The CRC-A unit (43_crc_a.md R160 to R166): the step as its shifts, CRCA and CRCV. -/

namespace Sys2Proof.Machine

/-! ### The bit-serial step -/

theorem crcShifts_eq_iterate (n : Nat) (c : Half) : crcShifts n c = crcShift^[n] c := by
  induction n generalizing c with
  | zero => rfl
  | succ n ih => exact ih (crcShift c)

theorem crcStep_eq_iterate (c : Half) (b : Byte) : crcStep c b = crcShift^[8] (c ^^^ b.setWidth 16) :=
  crcShifts_eq_iterate 8 _

theorem crcBytes_eq (c : Half) : crcBytes c = [c.extractLsb' 0 8, c.extractLsb' 8 8] := rfl

/-- The check value: CRC-A of the ASCII digits 1 to 9 (R161). -/
theorem crcA_digits :
    crcA [0x31#8, 0x32#8, 0x33#8, 0x34#8, 0x35#8, 0x36#8, 0x37#8, 0x38#8, 0x39#8] = 0xBF05#16 := by
  simp [crcA, crcStep, crcShifts, crcShift, Config.crcSeed, Config.crcPoly]

/-- Settles O22: a step is the iterate of one shift, and the fold peels off its last byte. -/
theorem crcFoldsTheBitSerialStep : Obligations.CrcFoldsTheBitSerialStep := by
  unfold Obligations.CrcFoldsTheBitSerialStep
  exact ⟨crcStep_eq_iterate, crcA_nil, crcA_append, crcBytes_eq, crcA_digits⟩

/-! ### CRCA -/

theorem crca_rangesFit_iff (s : State) : rangesFit .crca s ↔
    InBuf s.cfg s.regs.src.toNat s.regs.len.toNat ∧ InBuf s.cfg s.regs.dst.toNat 2 := by
  simp [rangesFit, inputRanges, outputRanges]

theorem crca_checks_range (s : State) : ∀ p ∈ commandChecks .crca s, p.2 = .range := by simp [commandChecks]

/-- A checksum written in transmit order: its low byte, its high byte, and every other byte as before (R161, R163). -/
theorem State.memWrite_crcBytes (s : State) (a : Nat) (c : Half) :
    (s.memWrite a (crcBytes c)).byte a = c.extractLsb' 0 8 ∧
    (s.memWrite a (crcBytes c)).byte (a + 1) = c.extractLsb' 8 8 ∧
    SameBytesExcept s (s.memWrite a (crcBytes c)) a 2 :=
  ⟨State.memWrite_byte_add s a (crcBytes c) 0 (by decide : 0 < 2),
    State.memWrite_byte_add s a (crcBytes c) 1 (by decide : 1 < 2),
    State.memWrite_byte_outside s a (crcBytes c)⟩

/-- Settles O25: with both ranges in BUF the effect is one memory write of the checksum of the bytes read before it;
otherwise a RANGE check fails. -/
theorem crcaStoresChecksum : Obligations.CrcaStoresChecksum := by
  unfold Obligations.CrcaStoresChecksum
  refine ⟨decode_encode .crca, fun s => ⟨fun hsrc hdst => ?_, fun hout => ?_⟩⟩
  · have hexec := exec_of_rangesFit (crca_checks_range s) ((crca_rangesFit_iff s).2 ⟨hsrc, hdst⟩)
    exact ⟨_, hexec, commandEffect_sameOutside .crca s, rfl,
      State.memWrite_crcBytes s s.dstAddr (crcA (s.memRead s.srcAddr s.count))⟩
  · exact exec_range_of_not_rangesFit (crca_checks_range s) (mt (crca_rangesFit_iff s).1 hout)

/-! ### CRCV -/

/-- CRCV has one length check, then one range check (R166, R234). -/
theorem crcv_firstFailure (s : State) : firstFailure (commandChecks .crcv s) =
    if 2 ≤ s.regs.len.toNat then
      if validRange s.cfg s.regs.src.toNat s.regs.len.toNat then none else some .range
    else some .badlen := by
  simp [commandChecks, firstFailure_cons, State.srcAddr_eq, State.count_eq]

/-- VOK as the rule says it: the last two bytes are the low and the high byte of the recomputed checksum (R166). -/
theorem crcvMatches_iff {s : State} (hlen : 2 ≤ s.regs.len.toNat) : crcvMatches s = true ↔
    s.byte (s.regs.src.toNat + s.regs.len.toNat - 2) = (crcvValue s).extractLsb' 0 8 ∧
    s.byte (s.regs.src.toNat + s.regs.len.toNat - 1) = (crcvValue s).extractLsb' 8 8 := by
  rw [Nat.add_sub_assoc hlen, Nat.add_sub_assoc (Nat.le_of_succ_le hlen)]
  exact Bool.and_eq_true_iff.trans (and_congr decide_eq_true_iff decide_eq_true_iff)

/-- Settles O26: with two bytes and the range in BUF both checks hold, and the comparison decides VOK; otherwise the first
failing check is BADLEN, then RANGE. -/
theorem crcvComparesTrailer : Obligations.CrcvComparesTrailer := by
  unfold Obligations.CrcvComparesTrailer
  refine ⟨decode_encode .crcv, fun s => ⟨fun hlen hin => ?_, fun hlen => ?_, fun hlen hout => ?_⟩⟩
  · have hexec := exec_pass .crcv s (firstFailure_eq_none.1 (by simp [crcv_firstFailure, hlen, hin]))
    exact ⟨crcvMatches s, hexec, crcvMatches_iff hlen⟩
  · exact exec_fault (by simp [crcv_firstFailure, Nat.not_le.2 hlen])
  · exact exec_fault (by simp [crcv_firstFailure, hlen, hout])

end Sys2Proof.Machine

/-! PROOF. The responder (44_responder.md R180 to R189): what CFG latches, the class of LEN, and the reply HANDLE writes. -/

namespace Sys2Proof.Machine

/-! ### CFG -/

/-- BCC as the rule prints it (R184). -/
theorem bccOf_eq (uid : Word) : bccOf uid =
    uid.extractLsb' 0 8 ^^^ uid.extractLsb' 8 8 ^^^ uid.extractLsb' 16 8 ^^^ uid.extractLsb' 24 8 := rfl

theorem sakCrcOf_eq (sak : Byte) : sakCrcOf sak = crcA [sak] := rfl

/-- Settles O29: CFG has no check, and its effect is the five identity writes and CFG_VALID. -/
theorem cfgLatchesIdentity : Obligations.CfgLatchesIdentity := by
  unfold Obligations.CfgLatchesIdentity
  refine ⟨decode_encode .cfg, fun s => ?_⟩
  rw [← bccOf_eq, ← sakCrcOf_eq]
  exact exec_pass .cfg s (List.forall_mem_nil _)

/-! ### The class of LEN -/

/-- R180 over the LEN register. -/
theorem classify_count (s : State) : classify s.count =
    if s.regs.len = 7#16 then .request else if s.regs.len = 16#16 then .selectAll
    else if s.regs.len = 72#16 then .selectTag else .unknown := by
  simp only [classify, State.count_eq, ← BitVec.toNat_inj, BitVec.reduceToNat]

theorem classify_count_request {s : State} (h : s.regs.len = 7#16) : classify s.count = .request := by
  simp [classify_count, h]

theorem classify_count_selectAll {s : State} (h : s.regs.len = 16#16) : classify s.count = .selectAll := by
  simp [classify_count, h]

theorem classify_count_selectTag {s : State} (h : s.regs.len = 72#16) : classify s.count = .selectTag := by
  simp [classify_count, h]

theorem classify_count_unknown {s : State} (h7 : s.regs.len ≠ 7#16) (h16 : s.regs.len ≠ 16#16)
    (h72 : s.regs.len ≠ 72#16) : classify s.count = .unknown := by
  simp [classify_count, h7, h16, h72]

/-! ### CLASSIFY -/

/-- What CLASSIFY writes once the class is known: the class into CLASS, its code into RES (R186). -/
theorem classifyWrites_of_class {s : State} {k : FrameClass} (hk : classify s.count = k) :
    classify s.count = k ∧ ((classify s.count).code.setWidth 64 : DWord) = k.code.setWidth 64 :=
  ⟨hk, congrArg (fun k' => k'.code.setWidth 64) hk⟩

/-- Settles O30: CLASSIFY has no check, and the class of LEN is the one R180 lists. -/
theorem classifyByBitCount : Obligations.ClassifyByBitCount := by
  unfold Obligations.ClassifyByBitCount
  refine ⟨decode_encode .classify, fun s => ⟨classify s.count, (classify s.count).code.setWidth 64,
    exec_pass .classify s (List.forall_mem_nil _), ?_, ?_, ?_, ?_⟩⟩
  · exact fun h => classifyWrites_of_class (classify_count_request h)
  · exact fun h => classifyWrites_of_class (classify_count_selectAll h)
  · exact fun h => classifyWrites_of_class (classify_count_selectTag h)
  · exact fun h7 h16 h72 => classifyWrites_of_class (classify_count_unknown h7 h16 h72)

/-! ### HANDLE -/

/-- HANDLE checks the configuration, then the range of its reply (R187, R234). -/
theorem handle_firstFailure (s : State) : firstFailure (commandChecks .handle s) =
    if s.regs.status.cfgValid then
      if validRange s.cfg s.regs.dst.toNat (replyBytes s.regs.len.toNat) then none else some .range
    else some .nocfg := by
  simp [commandChecks, firstFailure_cons, State.dstAddr_eq, handleReply_length]

/-- The registers HANDLE writes: RLEN counts the reply's bits, and of STATUS only CLASS and REPLY change (R188). -/
theorem handleEffect_regs (s : State) : (commandEffect .handle s).complete.regs = { s.regs with
    rlen := BitVec.ofNat 16 (8 * replyBytes s.regs.len.toNat)
    status := { s.regs.status with cls := classify s.count, reply := decide (classify s.count ≠ .unknown) }
    cmdcnt := s.regs.cmdcnt + 1#32 } := by
  rw [← handleReply_length]
  rfl

/-- HANDLE writes no byte of BUF but its reply (R188). -/
theorem handleEffect_sameBytesExcept (s : State) :
    SameBytesExcept s (commandEffect .handle s).complete s.regs.dst.toNat (handleReply s).length :=
  State.memWrite_byte_outside s s.regs.dst.toNat (handleReply s)

/-- What the host finds at DST after HANDLE is the reply (R188). -/
theorem handleEffect_bytesAt (s : State) :
    (commandEffect .handle s).complete.bytesAt s.regs.dst.toNat (handleReply s).length = handleReply s :=
  State.memWrite_memRead s s.regs.dst.toNat (handleReply s)

/-- HANDLE's answer once the class is known: CLASS, REPLY and the reply bytes of R181 at DST. -/
theorem handleEffect_of_class {s : State} {k : FrameClass} (hk : classify s.count = k) :
    (commandEffect .handle s).complete.regs.status.cls = k ∧
    (commandEffect .handle s).complete.regs.status.reply = decide (k ≠ .unknown) ∧
    (commandEffect .handle s).complete.bytesAt s.regs.dst.toNat (replyOf s.regs k).length = replyOf s.regs k := by
  subst hk
  exact ⟨rfl, rfl, handleEffect_bytesAt s⟩

/-- An unknown length has no reply bytes, so HANDLE leaves BUF as it reads (R189). -/
theorem handleEffect_sameBytes_of_unknown {s : State} (hk : classify s.count = .unknown) :
    SameBytes s (commandEffect .handle s).complete := by
  have hnil : handleReply s = [] := congrArg (replyOf s.regs) hk
  intro x
  apply handleEffect_sameBytesExcept s x
  rw [hnil]
  exact Nat.lt_or_ge x _

/-- Settles O31: the first failing check is NOCFG, then RANGE; a HANDLE that passes both writes the reply of the class of
LEN. -/
theorem handleAnswersByBitCount : Obligations.HandleAnswersByBitCount := by
  unfold Obligations.HandleAnswersByBitCount
  refine ⟨decode_encode .handle, fun s => ⟨fun hcfg => ?_, fun hcfg hout => ?_, fun hcfg hin => ?_⟩⟩
  · exact exec_fault (by simp [handle_firstFailure, hcfg])
  · exact exec_fault (by simp [handle_firstFailure, hcfg, hout])
  · have hexec := exec_pass .handle s (firstFailure_eq_none.1 (by simp [handle_firstFailure, hcfg, hin]))
    refine ⟨_, hexec, commandEffect_sameOutside .handle s, handleEffect_regs s, ?_, ?_, ?_, ?_, ?_⟩
    · exact handleReply_length s ▸ handleEffect_sameBytesExcept s
    · exact fun h => handleEffect_of_class (classify_count_request h)
    · exact fun h => handleEffect_of_class (classify_count_selectAll h)
    · exact fun h => handleEffect_of_class (classify_count_selectTag h)
    · intro h7 h16 h72
      have hk := classify_count_unknown h7 h16 h72
      obtain ⟨hcls, hreply, -⟩ := handleEffect_of_class hk
      exact ⟨hcls, hreply, handleEffect_sameBytes_of_unknown hk⟩

end Sys2Proof.Machine

/-! PROOF. The BitBuffer unit (45_bitbuffer.md R200 to R213): the length check, `PutBits` by bits, then the commands. -/

namespace Sys2Proof.Machine

/-! ### Commands with one length check before their RANGE checks (R210, R211) -/

section LengthChecked

variable {i : Instr} {s : State} {lengthOk : Prop} [Decidable lengthOk] {ranges : List Check}

/-- The length check stands first, so a bad length faults BADLEN whatever the ranges (R210). -/
theorem exec_badlen_of_not_lengthOk (hc : commandChecks i s = (decide lengthOk, .badlen) :: ranges)
    (hlen : ¬ lengthOk) : FaultsWith (exec i s) s .badlen :=
  exec_fault (by rw [hc, decide_eq_false hlen]; rfl)

/-- With a good length and its ranges in BUF the command completes its effect. -/
theorem exec_of_lengthOk_rangesFit (hc : commandChecks i s = (decide lengthOk, .badlen) :: ranges)
    (hranges : ∀ p ∈ ranges, p.2 = .range) (hlen : lengthOk) (hfit : rangesFit i s) :
    exec i s = .next (commandEffect i s).complete := by
  have hpass := (rangeChecks_iff i s).2 hfit
  rw [hc] at hpass
  rw [exec_eq_runCommand, hc, decide_eq_true hlen, runCommand_ok]
  exact runCommand_pass _ s fun p hp => hpass p (List.mem_cons_of_mem _ hp) (hranges p hp)

/-- With a good length only a RANGE check can fail. -/
theorem exec_range_of_lengthOk_not_rangesFit (hc : commandChecks i s = (decide lengthOk, .badlen) :: ranges)
    (hranges : ∀ p ∈ ranges, p.2 = .range) (hlen : lengthOk) (hout : ¬ rangesFit i s) :
    FaultsWith (exec i s) s .range := by
  rw [exec_eq_runCommand, hc, decide_eq_true hlen, runCommand_ok]
  refine runCommand_range _ s hranges fun hpass => hout ((rangeChecks_iff i s).1 ?_)
  rw [hc, List.forall_mem_cons]
  exact ⟨fun _ => decide_eq_true hlen, fun p hp _ => hpass p hp⟩

end LengthChecked

/-! ### `PutBits` bit by bit (R201) -/

theorem State.putBits_bitAt_of_lt (s : State) (a : Nat) {m i : Nat} (f : Nat → Bool) (hi : i < m) :
    (s.putBits a m f).bitAt a i = f i := by
  rw [State.putBits_bitAt s a m f i (by rw [nbytes_eq]; omega), decide_eq_true hi, Bool.true_and]

theorem State.putBits_bitAt_pad (s : State) (a : Nat) {m i : Nat} (f : Nat → Bool) (hi : m ≤ i)
    (hpad : i < 8 * nbytes m) : (s.putBits a m f).bitAt a i = false := by
  rw [State.putBits_bitAt s a m f i hpad, decide_eq_false (Nat.not_lt.2 hi), Bool.false_and]

theorem State.putBits_sameBytesExcept (s : State) (a m : Nat) (f : Nat → Bool) :
    SameBytesExcept s (s.putBits a m f) a (nbytes m) :=
  State.putBits_byte_outside s a m f

/-! ### BPACK -/

/-- The mask has a bit for each valid bit of the last byte (R203). -/
theorem lastByteMask_getLsbD (n : Nat) {j : Nat} (hj : j < 8) : (lastByteMask n).getLsbD j =
    (decide (n ≠ 0) && (decide (n % 8 = 0) || decide (j < n % 8))) := by
  have hones : ∀ j : Fin 8, (0xFF#8 : Byte).getLsbD j = true := by decide
  have hlow : ∀ r j : Fin 8, ((1#8 <<< r.val) - 1#8).getLsbD j = decide (j < r) := by decide
  unfold lastByteMask
  split_ifs with h0 hr
  · simp [h0]
  · simpa [h0, hr] using hones ⟨j, hj⟩
  · simpa [h0, hr] using hlow ⟨n % 8, Nat.mod_lt n (by decide)⟩ ⟨j, hj⟩

/-- The fields of the geometry word, low to high (R203). -/
theorem packGeometry_fields (n : Nat) :
    (packGeometry n).extractLsb' 0 16 = BitVec.ofNat 16 (nbytes n) ∧
    (packGeometry n).extractLsb' 16 3 = BitVec.ofNat 3 (n % 8) ∧
    (packGeometry n).extractLsb' 19 5 = 0#5 ∧
    (packGeometry n).extractLsb' 24 8 = lastByteMask n := by
  unfold packGeometry
  refine ⟨?_, ?_, ?_, ?_⟩
  · exact BitVec.extractLsb'_append_eq_right
  · exact (BitVec.extractLsb'_append_eq_of_le (by decide)).trans BitVec.extractLsb'_append_eq_right
  · exact (BitVec.extractLsb'_append_eq_of_le (by decide)).trans
      ((BitVec.extractLsb'_append_eq_of_le (by decide)).trans BitVec.extractLsb'_append_eq_right)
  · exact (BitVec.extractLsb'_append_eq_of_le (by decide)).trans
      ((BitVec.extractLsb'_append_eq_of_le (by decide)).trans BitVec.extractLsb'_append_eq_left)

/-- A zero-extended word leaves RES_HI 0 (R35). -/
theorem extractLsb'_setWidth_res_hi (x : Word) : (x.setWidth 64 : DWord).extractLsb' 32 32 = 0#32 := by
  ext k hk
  simp

/-- Settles O33: BPACK has no check, and RES is the zero-extended geometry word, read field by field. -/
theorem bpackGivesByteGeometry : Obligations.BpackGivesByteGeometry := by
  unfold Obligations.BpackGivesByteGeometry
  refine ⟨decode_encode .bpack, fun s => ?_⟩
  obtain ⟨hbytes, hresidue, hzero, hmask⟩ := packGeometry_fields s.count
  refine ⟨(packGeometry s.count).setWidth 64, rfl, ?_, ?_, ?_, fun j hj => ?_, ?_⟩
  · rw [BitVec.extractLsb'_setWidth_of_le (by decide), hbytes, BitVec.toNat_ofNat, nbytes_eq, State.count_eq]
    omega
  · rw [BitVec.extractLsb'_setWidth_of_le (by decide), hresidue, BitVec.toNat_ofNat, State.count_eq]
    omega
  · rw [BitVec.extractLsb'_setWidth_of_le (by decide), hzero]
  · rw [getLsbD_setWidth_res (by decide), ← lastByteMask_getLsbD _ hj, ← State.count_eq, ← hmask,
      BitVec.getLsbD_extractLsb', decide_eq_true hj, Bool.true_and]
  · exact extractLsb'_setWidth_res_hi _

/-! ### BSHR -/

theorem bshr_rangesFit_iff (s : State) : rangesFit .bshr s ↔
    InBuf s.cfg s.regs.src.toNat (nbytes s.count) ∧ InBuf s.cfg s.regs.dst.toNat (nbytes (bshrCount s)) := by
  simp [rangesFit, inputRanges, outputRanges, nbytes_eq, bshrCount_eq]

theorem bshr_checks_range (s : State) : ∀ p ∈ commandChecks .bshr s, p.2 = .range := by simp [commandChecks]

/-- Settles O34: with both ranges in BUF the effect is one `PutBits` of the input bits from SHAMT on; otherwise a RANGE
check fails. -/
theorem bshrDropsLeadingBits : Obligations.BshrDropsLeadingBits := by
  unfold Obligations.BshrDropsLeadingBits
  refine ⟨decode_encode .bshr, ?_⟩
  rintro s _ _ _ rfl rfl rfl
  refine ⟨fun hsrc hdst => ?_, fun hout => ?_⟩
  · have hexec := exec_of_rangesFit (bshr_checks_range s) ((bshr_rangesFit_iff s).2 ⟨hsrc, hdst⟩)
    exact ⟨_, hexec, commandEffect_sameOutside .bshr s, rfl, fun i hi => State.putBits_bitAt_of_lt s _ _ hi,
      fun i hi hpad => State.putBits_bitAt_pad s _ _ hi hpad, State.putBits_sameBytesExcept s _ _ _⟩
  · exact exec_range_of_not_rangesFit (bshr_checks_range s) (mt (bshr_rangesFit_iff s).1 hout)

/-! ### BSHL -/

theorem bshl_rangesFit_iff (s : State) : rangesFit .bshl s ↔
    InBuf s.cfg s.regs.src.toNat (nbytes s.count) ∧ InBuf s.cfg s.regs.dst.toNat (nbytes (bshlCount s)) := by
  simp [rangesFit, inputRanges, outputRanges, nbytes_eq, bshlCount_eq]

/-- The bits BSHL writes (R204). -/
theorem bshlEffect_bitAt (s : State) {i : Nat} (hi : i < bshlCount s) :
    (commandEffect .bshl s).complete.bitAt s.regs.dst.toNat i =
      if i < s.shift then false else s.bitAt s.regs.src.toNat (i - s.shift) :=
  State.putBits_bitAt_of_lt s s.dstAddr _ hi

/-- Settles O35: BADLEN is checked first; with both ranges in BUF the effect is one `PutBits` of SHAMT zeros and the
input bits. -/
theorem bshlPrependsZeroBits : Obligations.BshlPrependsZeroBits := by
  unfold Obligations.BshlPrependsZeroBits
  refine ⟨decode_encode .bshl, ?_⟩
  rintro s _ _ rfl rfl
  have hranges : ∀ p ∈ (commandChecks .bshl s).tail, p.2 = .range := by simp [commandChecks]
  refine ⟨fun hlen hsrc hdst => ?_, fun hlen => ?_, fun hlen hout => ?_⟩
  · have hexec := exec_of_lengthOk_rangesFit rfl hranges hlen ((bshl_rangesFit_iff s).2 ⟨hsrc, hdst⟩)
    refine ⟨_, hexec, commandEffect_sameOutside .bshl s, rfl, fun i hi => ?_, fun i hik hi => ?_,
      fun i hi hpad => State.putBits_bitAt_pad s _ _ hi hpad, State.putBits_sameBytesExcept s _ _ _⟩
    · exact (bshlEffect_bitAt s (Nat.lt_add_left _ hi)).trans (if_pos hi)
    · exact (bshlEffect_bitAt s hi).trans (if_neg (Nat.not_lt.2 hik))
  · exact exec_badlen_of_not_lengthOk rfl (Nat.not_le.2 hlen)
  · exact exec_range_of_lengthOk_not_rangesFit rfl hranges hlen (mt (bshl_rangesFit_iff s).1 hout)

/-! ### WRAP -/

theorem wrap_rangesFit_iff (s : State) : rangesFit .wrap s ↔
    InBuf s.cfg s.regs.src.toNat (nbytes s.count) ∧ InBuf s.cfg s.regs.padr.toNat (s.count / 8)
      ∧ InBuf s.cfg s.regs.dst.toNat (nbytes (wrapCount s)) := by
  simp [rangesFit, inputRanges, outputRanges, nbytes_eq, wrapCount_eq, and_assoc]

/-- A whole byte's bits stand at 9j to 9j + 7 of the stream (R208). -/
theorem wrapBit_data (s : State) {j b : Nat} (hj : j < s.count / 8) (hb : b < 8) :
    wrapBit s (9 * j + b) = s.bitAt s.srcAddr (8 * j + b) := by
  simp [wrapBit, show (9 * j + b) / 9 = j by omega, show (9 * j + b) % 9 = b by omega, hj, hb]

/-- A whole byte's parity bit follows it (R208). -/
theorem wrapBit_slot (s : State) {j : Nat} (hj : j < s.count / 8) :
    wrapBit s (9 * j + 8) = (s.byte (s.padrAddr + j)).getLsbD 0 := by
  simp [wrapBit, show (9 * j + 8) / 9 = j by omega, show (9 * j + 8) % 9 = 8 by omega, hj]

/-- The residual bits follow the last parity bit (R208). -/
theorem wrapBit_residue (s : State) {b : Nat} (hb : b < s.count % 8) :
    wrapBit s (9 * (s.count / 8) + b) = s.bitAt s.srcAddr (8 * (s.count / 8) + b) := by
  simp [wrapBit, show (9 * (s.count / 8) + b) / 9 = s.count / 8 by omega,
    show (9 * (s.count / 8) + b) % 9 = b by omega]

theorem wrapEffect_bitAt (s : State) {i : Nat} (hi : i < s.regs.len.toNat + s.regs.len.toNat / 8) :
    (commandEffect .wrap s).complete.bitAt s.regs.dst.toNat i = wrapBit s i :=
  State.putBits_bitAt_of_lt s s.dstAddr (wrapBit s) hi

/-- Settles O36: BADLEN is checked first; with the three ranges in BUF the effect is one `PutBits` of the stream of
R208. -/
theorem wrapInterleavesParity : Obligations.WrapInterleavesParity := by
  unfold Obligations.WrapInterleavesParity
  refine ⟨decode_encode .wrap, ?_⟩
  rintro s _ _ rfl rfl
  have hranges : ∀ p ∈ (commandChecks .wrap s).tail, p.2 = .range := by simp [commandChecks]
  refine ⟨fun hlen hsrc hpadr hdst => ?_, fun hlen => ?_, fun hlen hout => ?_⟩
  · have hexec := exec_of_lengthOk_rangesFit rfl hranges hlen ((wrap_rangesFit_iff s).2 ⟨hsrc, hpadr, hdst⟩)
    refine ⟨_, hexec, commandEffect_sameOutside .wrap s, rfl, fun j b hj hb => ?_, fun j hj => ?_, fun b hb => ?_,
      fun i hi hpad => State.putBits_bitAt_pad s _ _ hi hpad, State.putBits_sameBytesExcept s _ _ _⟩
    · exact (wrapEffect_bitAt s (by omega)).trans (wrapBit_data s hj hb)
    · exact (wrapEffect_bitAt s (by omega)).trans (wrapBit_slot s hj)
    · exact (wrapEffect_bitAt s (by omega)).trans (wrapBit_residue s hb)
  · exact exec_badlen_of_not_lengthOk rfl (Nat.not_le.2 hlen)
  · exact exec_range_of_lengthOk_not_rangesFit rfl hranges hlen (mt (wrap_rangesFit_iff s).1 hout)

/-! ### UNWRAP -/

theorem unwrap_rangesFit_iff (s : State) : rangesFit .unwrap s ↔
    InBuf s.cfg s.regs.src.toNat (nbytes s.count) ∧ InBuf s.cfg s.regs.dst.toNat (nbytes (unwrapCount s))
      ∧ InBuf s.cfg s.regs.padr.toNat (s.count / 9) := by
  simp [rangesFit, inputRanges, outputRanges, nbytes_eq, unwrapCount_eq]

/-- UNWRAP's first write: the data bits at DST (R213). -/
def unwrapData (s : State) : State :=
  s.putBits s.dstAddr (unwrapCount s) fun i => s.getBit s.srcAddr (9 * (i / 8) + i % 8)

theorem unwrapEffect_byte (s : State) (x : Nat) : (commandEffect .unwrap s).complete.byte x =
    ((unwrapData s).memWrite s.padrAddr (unwrapSlots s)).byte x := rfl

/-- The slots are written last, so a slot reads back whatever the data range (R213). -/
theorem unwrapEffect_byte_slot (s : State) {j : Nat} (hj : j < s.count / 9) :
    (commandEffect .unwrap s).complete.byte (s.padrAddr + j) =
      if s.bitAt s.srcAddr (9 * j + 8) then 0x01#8 else 0x00#8 := by
  rw [unwrapEffect_byte, unwrapSlots, State.memWrite_map_range_byte _ _ _ hj, slotOf_ofBool, State.getBit_eq_bitAt]

/-- A byte that holds no slot reads as the data write left it (R213). -/
theorem unwrapEffect_byte_outside_slots (s : State) {x : Nat} (hx : x < s.padrAddr ∨ s.padrAddr + s.count / 9 ≤ x) :
    (commandEffect .unwrap s).complete.byte x = (unwrapData s).byte x :=
  State.memWrite_map_range_sameBytesExcept (unwrapData s) s.padrAddr (s.count / 9) _ x hx

/-- Settles O37: BADLEN is checked first; with all three ranges in BUF the effect is one `PutBits` of the data, then
one memory write of the slots. -/
theorem unwrapSplitsStream : Obligations.UnwrapSplitsStream := by
  unfold Obligations.UnwrapSplitsStream
  refine ⟨decode_encode .unwrap, ?_⟩
  rintro s _ _ _ rfl rfl rfl
  have hranges : ∀ p ∈ (commandChecks .unwrap s).tail, p.2 = .range := by simp [commandChecks]
  refine ⟨fun hlen hsrc hdst hpadr => ?_, fun hlen => ?_, fun hlen hout => ?_⟩
  · have hexec := exec_of_lengthOk_rangesFit rfl hranges hlen ((unwrap_rangesFit_iff s).2 ⟨hsrc, hdst, hpadr⟩)
    refine ⟨_, hexec, commandEffect_sameOutside .unwrap s, rfl, fun j hj => unwrapEffect_byte_slot s hj,
      fun i hi hslots => ?_, fun x hdata hslots => ?_⟩
    · exact (State.bitAt_congr (unwrapEffect_byte_outside_slots s hslots)).trans (State.putBits_bitAt s _ _ _ i hi)
    · exact (unwrapEffect_byte_outside_slots s hslots).trans (State.putBits_sameBytesExcept s _ _ _ x hdata)
  · exact exec_badlen_of_not_lengthOk rfl (not_not_intro hlen)
  · exact exec_range_of_lengthOk_not_rangesFit rfl hranges hlen (mt (unwrap_rangesFit_iff s).1 hout)

end Sys2Proof.Machine

/-! PROOF. The fault table (60_exceptions.md R234, R235): a command's checks stand in the order NOCFG, BADLEN, RANGE, so the
first cause with a failing check is the one raised. -/

namespace Sys2Proof.Machine

/-! ### Checks by cause -/

/-- The checks of a list that raise one cause, in the list's order. -/
def checksRaising (c : FaultCode) (cs : List Check) : List Check := cs.filter fun p => p.2 = c

theorem firstFailure_append (cs ds : List Check) :
    firstFailure (cs ++ ds) = (firstFailure cs).or (firstFailure ds) := by
  induction cs with
  | nil => rfl
  | cons p cs ih =>
    obtain ⟨_ | _, c⟩ := p
    · rfl
    · exact ih

theorem firstFailure_checksRaising_eq_none_iff (c : FaultCode) (cs : List Check) :
    firstFailure (checksRaising c cs) = none ↔ ∀ p ∈ cs, p.2 = c → p.1 = true := by
  simp [firstFailure_eq_none, checksRaising]

/-- Checks of one cause can raise no other. -/
theorem firstFailure_checksRaising_eq_some {c : FaultCode} {cs : List Check} (h : ¬ ∀ p ∈ cs, p.2 = c → p.1 = true) :
    firstFailure (checksRaising c cs) = some c := by
  obtain ⟨d, hd⟩ := Option.ne_none_iff_exists'.1 (mt (firstFailure_checksRaising_eq_none_iff c cs).1 h)
  have hdc : d = c := by simpa using List.of_mem_filter (firstFailure_mem hd)
  exact hdc ▸ hd

/-! ### The rows of the table -/

/-- Every row of R235 lists its NOCFG check first, then its BADLEN check, then its RANGE checks. -/
theorem commandChecks_in_tableOrder (i : Instr) (s : State) : commandChecks i s =
    checksRaising .nocfg (commandChecks i s) ++
      (checksRaising .badlen (commandChecks i s) ++ checksRaising .range (commandChecks i s)) := by
  cases i <;> rfl

/-- So a command's first failing check is the first of the first cause that has one. -/
theorem firstFailure_commandChecks (i : Instr) (s : State) : firstFailure (commandChecks i s) =
    (firstFailure (checksRaising .nocfg (commandChecks i s))).or
      ((firstFailure (checksRaising .badlen (commandChecks i s))).or
        (firstFailure (checksRaising .range (commandChecks i s)))) := by
  rw [← firstFailure_append, ← firstFailure_append, ← commandChecks_in_tableOrder]

/-- Only HANDLE checks the configuration (R235). -/
theorem nocfgChecks_iff (i : Instr) (s : State) :
    (∀ p ∈ commandChecks i s, p.2 = .nocfg → p.1 = true) ↔ ¬ lacksConfiguration i s := by
  cases i <;> simp [commandChecks, lacksConfiguration]

/-- Only CRCV, BSHL, WRAP and UNWRAP check LEN (R235). -/
theorem badlenChecks_iff (i : Instr) (s : State) :
    (∀ p ∈ commandChecks i s, p.2 = .badlen → p.1 = true) ↔
      ¬ lengthInvalid i s.regs.len.toNat s.regs.shamt.toNat := by
  cases i with
  | crcv =>
    have hcount : 2 ≤ s.count ↔ 1 < s.regs.len.toNat := Iff.rfl
    simp [commandChecks, lengthInvalid, hcount]
  | bshl =>
    have hcount : bshlCount s ≤ Config.maxBitCount ↔ s.regs.len.toNat + s.regs.shamt.toNat ≤ 65535 := Iff.rfl
    simp [commandChecks, lengthInvalid, hcount]
  | wrap =>
    have hcount : wrapCount s ≤ Config.maxBitCount ↔ s.regs.len.toNat + s.regs.len.toNat / 8 ≤ 65535 := Iff.rfl
    simp [commandChecks, lengthInvalid, hcount]
  | _ => simp [commandChecks, lengthInvalid]

section TableOrder

variable {i : Instr} {s : State}

theorem exec_nocfg (hcfg : lacksConfiguration i s) : FaultsWith (exec i s) s .nocfg := by
  have hnocfg := firstFailure_checksRaising_eq_some (mt (nocfgChecks_iff i s).1 (not_not_intro hcfg))
  exact exec_fault (by rw [firstFailure_commandChecks, hnocfg, Option.some_or])

/-- A configuration that is not lacking leaves the length and the ranges to check. -/
theorem firstFailure_of_configured (hcfg : ¬ lacksConfiguration i s) : firstFailure (commandChecks i s) =
    (firstFailure (checksRaising .badlen (commandChecks i s))).or
      (firstFailure (checksRaising .range (commandChecks i s))) := by
  have hnocfg := (firstFailure_checksRaising_eq_none_iff _ _).2 ((nocfgChecks_iff i s).2 hcfg)
  rw [firstFailure_commandChecks, hnocfg, Option.none_or]

theorem exec_badlen (hcfg : ¬ lacksConfiguration i s) (hlen : lengthInvalid i s.regs.len.toNat s.regs.shamt.toNat) :
    FaultsWith (exec i s) s .badlen := by
  have hbadlen := firstFailure_checksRaising_eq_some (mt (badlenChecks_iff i s).1 (not_not_intro hlen))
  exact exec_fault (by rw [firstFailure_of_configured hcfg, hbadlen, Option.some_or])

/-- With a valid length too only the ranges are left to check. -/
theorem firstFailure_of_lengthValid (hcfg : ¬ lacksConfiguration i s)
    (hlen : ¬ lengthInvalid i s.regs.len.toNat s.regs.shamt.toNat) :
    firstFailure (commandChecks i s) = firstFailure (checksRaising .range (commandChecks i s)) := by
  have hbadlen := (firstFailure_checksRaising_eq_none_iff _ _).2 ((badlenChecks_iff i s).2 hlen)
  rw [firstFailure_of_configured hcfg, hbadlen, Option.none_or]

theorem exec_range (hcfg : ¬ lacksConfiguration i s) (hlen : ¬ lengthInvalid i s.regs.len.toNat s.regs.shamt.toNat)
    (hfit : ¬ rangesFit i s) : FaultsWith (exec i s) s .range := by
  have hrange := firstFailure_checksRaising_eq_some (mt (rangeChecks_iff i s).1 hfit)
  exact exec_fault ((firstFailure_of_lengthValid hcfg hlen).trans hrange)

theorem exec_completes (hcfg : ¬ lacksConfiguration i s)
    (hlen : ¬ lengthInvalid i s.regs.len.toNat s.regs.shamt.toNat) (hfit : rangesFit i s) :
    exec i s = .next (commandEffect i s).complete := by
  have hrange := (firstFailure_checksRaising_eq_none_iff _ _).2 ((rangeChecks_iff i s).2 hfit)
  exact exec_pass i s (firstFailure_eq_none.1 ((firstFailure_of_lengthValid hcfg hlen).trans hrange))

end TableOrder

/-- CMDCNT is the only register a completed command's frame writes, and no effect writes FAULT or FCODE (R105, R232). -/
theorem complete_commandEffect_cmdcnt_fault (i : Instr) (s : State) :
    (commandEffect i s).complete.regs.cmdcnt = s.regs.cmdcnt + 1#32
      ∧ (commandEffect i s).complete.regs.status.fault = s.regs.status.fault
      ∧ (commandEffect i s).complete.regs.status.fcode = s.regs.status.fcode := by
  obtain ⟨hfault, hfcode, hcmdcnt⟩ := commandEffect_fault i s
  exact ⟨congrArg (· + 1#32) hcmdcnt, hfault, hfcode⟩

/-- Settles O8: the checks stand in the table's order, each cause's checks are the condition the table gives it, and a
command that passes them all completes an effect that writes neither FAULT nor FCODE. -/
theorem commandsFaultInTableOrder : Obligations.CommandsFaultInTableOrder := by
  unfold Obligations.CommandsFaultInTableOrder
  intro i s
  refine ⟨exec_nocfg, exec_badlen, exec_range, fun hcfg hlen hfit => ?_⟩
  exact ⟨_, exec_completes hcfg hlen hfit, commandEffect_sameOutside i s, complete_commandEffect_cmdcnt_fault i s⟩

end Sys2Proof.Machine

/-! PROOF. The two resets (70_reset_and_hazards.md R260, R261): what a CTRL write does in one equation, and the reset values
written out. -/

namespace Sys2Proof.Machine

/-- A CTRL write touches only the register file, and bit 0 alone says whether it is reset (R30, R261). -/
theorem ctrlWrite_eq (v : Word) (s : State) :
    ctrlWrite v s = { s with regs := if v.getLsbD 0 then RegFile.reset else s.regs } := by
  unfold ctrlWrite
  split
  · rfl
  · rfl

/-- A host write of CTRL is always made: no register, FAULT included, stands in its way (R30, R261). -/
theorem step_ctrlWrite {s : State} {v : Word} {rest : List Access} (hp : s.pending = .regWrite 0x08 v :: rest) :
    step s = .next { s with pending := rest, regs := if v.getLsbD 0 then RegFile.reset else s.regs } := by
  have hwrite : registerWrite 0x08 v { s with pending := rest } = .next (ctrlWrite v { s with pending := rest }) := rfl
  rw [step_regWrite hp rfl, hwrite, ctrlWrite_eq]

/-- Settles O53: the values are `RegFile.reset`, which every initial state holds and every reset step leaves. -/
theorem registersAfterReset : Obligations.RegistersAfterReset := by
  unfold Obligations.RegistersAfterReset
  rintro r rfl
  exact ⟨rfl, State.resetWith_regs, fun s rest hp => step_reset hp rfl⟩

/-- Settles O54, by the one state a CTRL write leads to. -/
theorem ctrlWriteSoftResets : Obligations.CtrlWriteSoftResets := by
  unfold Obligations.CtrlWriteSoftResets
  intro s v rest hp
  exact ⟨_, step_ctrlWrite hp, fun _ => rfl, rfl, rfl, rfl, rfl, rfl, fun hset => if_pos hset,
    fun hclear => if_neg (ne_true_of_eq_false hclear)⟩

end Sys2Proof.Machine

/-! PROOF. The encoding both ways, and the steps that need no rule of a command (30_encoding.md R81, 40_command_cycle.md
R100, 60_exceptions.md R231, R248). -/

namespace Sys2Proof.Machine

/-- Settles O2: the word of a command is the only one that decodes to it, read as a whole or by its two fields. -/
theorem decodeInvertsEncode : Obligations.DecodeInvertsEncode := by
  unfold Obligations.DecodeInvertsEncode
  intro w i
  have hwf : i.wellFormed = true := by cases i <;> rfl
  exact ⟨hwf, decode_eq_ok_iff, decode_eq_ok_iff_fields⟩

/-- A CMD write of a legal word on an unfaulted block runs its command (R100). -/
theorem commandWrite_legal {w : Word} {i : Instr} {s : State} (hs : s.regs.status.fault = false)
    (hw : decode w = .ok i) : commandWrite w s = exec i s := by
  simp [commandWrite, hs, hw]

/-- Settles O5: the step is the CMD write, which runs the command. -/
theorem stepRunsDecodedCommand : Obligations.StepRunsDecodedCommand := by
  unfold Obligations.StepRunsDecodedCommand
  intro s w i rest hp hs hw
  exact (step_cmdWrite hp).trans (commandWrite_legal (s := { s with pending := rest }) hs hw)

/-- Settles O7: with nothing pending a step makes no access. -/
theorem idleBlockHoldsItsState : Obligations.IdleBlockHoldsItsState := by
  unfold Obligations.IdleBlockHoldsItsState
  exact fun _ => step_nil

/-- Settles O9, code by code. -/
theorem faultAndClassCodes : Obligations.FaultAndClassCodes := by
  unfold Obligations.FaultAndClassCodes
  exact ⟨rfl, rfl, rfl, rfl, rfl, rfl, rfl, rfl, rfl⟩

end Sys2Proof.Machine

/-! PROOF. The memory writes of each command as data (20_memory.md R67, R70): where a command writes, that it writes nowhere
else, and that BUF stays canonical. -/

namespace Sys2Proof.Machine

/-! ### A command's memory writes in order -/

/-- The memory writes of each command, in order: an address and the bytes from there on. -/
def commandWrites (i : Instr) (s : State) : List (Nat × List Byte) :=
  match i with
  | .nop | .par | .mir8 | .mir32 | .mir64 | .swp32 | .swp64 | .crcv | .cfg | .classify | .bpack => []
  | .parbuf => [(s.padrAddr, parbufSlots s)]
  | .parchk => [(s.dstAddr, (parchkFlags s).map fun m => slotOf (BitVec.ofBool m))]
  | .mirbuf => [(s.srcAddr, (s.memRead s.srcAddr s.count).map mir)]
  | .crca => [(s.dstAddr, crcBytes (crcA (s.memRead s.srcAddr s.count)))]
  | .handle => [(s.dstAddr, handleReply s)]
  | .bshr => [(s.dstAddr, packBits (bshrCount s) fun i => s.getBit s.srcAddr (i + s.shift))]
  | .bshl => [(s.dstAddr, packBits (bshlCount s) fun i =>
      if i < s.shift then false else s.getBit s.srcAddr (i - s.shift))]
  | .wrap => [(s.dstAddr, packBits (wrapCount s) (wrapBit s))]
  | .unwrap =>
    [(s.dstAddr, packBits (unwrapCount s) fun i => s.getBit s.srcAddr (9 * (i / 8) + i % 8)),
     (s.padrAddr, unwrapSlots s)]

/-- A list of memory writes, made one after the other. -/
def Memory.storeAll (m : Memory) (ws : List (Nat × List Byte)) : Memory :=
  ws.foldl (fun m w => m.storeBytes w.1 w.2) m

theorem Memory.storeAll_cons (m : Memory) (w : Nat × List Byte) (ws : List (Nat × List Byte)) :
    m.storeAll (w :: ws) = (m.storeBytes w.1 w.2).storeAll ws := rfl

/-- The byte range (address, length) of a memory write. -/
def writtenRange (w : Nat × List Byte) : Nat × Nat := (w.1, w.2.length)

/-- An effect changes BUF by the command's memory writes and nothing else. -/
theorem commandEffect_buf (i : Instr) (s : State) :
    (commandEffect i s).buf = s.buf.storeAll (commandWrites i s) := by cases i <;> rfl

/-- The memory writes of a command fill exactly the ranges its rule names (R70). -/
theorem commandWrites_ranges (i : Instr) (s : State) : (commandWrites i s).map writtenRange = outputRanges i s := by
  cases i with
  | parbuf | parchk | mirbuf | crca | unwrap =>
    simp [commandWrites, writtenRange, outputRanges, parbufSlots, parchkFlags, crcBytes, unwrapSlots, unwrapCount_eq,
      nbytes_eq]
  | handle => simp [commandWrites, writtenRange, outputRanges, handleReply_length]
  | bshr | bshl | wrap =>
    simp [commandWrites, writtenRange, outputRanges, bshrCount_eq, bshlCount_eq, wrapCount_eq, nbytes_eq]
  | _ => rfl

theorem mem_outputRanges_of_mem_commandWrites {i : Instr} {s : State} {w : Nat × List Byte}
    (hw : w ∈ commandWrites i s) : (w.1, w.2.length) ∈ outputRanges i s :=
  commandWrites_ranges i s ▸ List.mem_map_of_mem (f := writtenRange) hw

/-! ### What a list of memory writes does to BUF -/

/-- An address no write covers is listed as before. -/
theorem Memory.byteAt?_storeAll_outside {x : Nat} {ws : List (Nat × List Byte)} (m : Memory)
    (h : ∀ w ∈ ws, x < w.1 ∨ w.1 + w.2.length ≤ x) : (m.storeAll ws).byteAt? x = m.byteAt? x := by
  induction ws generalizing m with
  | nil => rfl
  | cons w ws ih =>
    obtain ⟨hw, hws⟩ := List.forall_mem_cons.1 h
    rw [Memory.storeAll_cons, ih _ hws, Memory.byteAt?_storeBytes, if_neg (by omega)]

/-- No write takes a byte off the list: what is unwritten after was unwritten before. -/
theorem Memory.byteAt?_of_storeAll_none {x : Nat} {ws : List (Nat × List Byte)} {m : Memory}
    (h : (m.storeAll ws).byteAt? x = none) : m.byteAt? x = none := by
  induction ws generalizing m with
  | nil => exact h
  | cons w ws ih =>
    have hw := ih h
    rw [Memory.byteAt?_storeBytes] at hw
    split_ifs at hw
    exact hw

/-- The writes alone decide a covered address, whatever BUF they are made in. -/
theorem Memory.byteAt?_storeAll_covered {x : Nat} {ws : List (Nat × List Byte)}
    (h : ∃ w ∈ ws, w.1 ≤ x ∧ x < w.1 + w.2.length) : ∃ b, ∀ m : Memory, (m.storeAll ws).byteAt? x = some b := by
  induction ws with
  | nil => simp at h
  | cons w ws ih =>
    by_cases hws : ∃ w' ∈ ws, w'.1 ≤ x ∧ x < w'.1 + w'.2.length
    · obtain ⟨b, hb⟩ := ih hws
      exact ⟨b, fun m => hb _⟩
    · have hw : w.1 ≤ x ∧ x < w.1 + w.2.length := by simpa [hws] using h
      have hout : ∀ w' ∈ ws, x < w'.1 ∨ w'.1 + w'.2.length ≤ x := fun w' hmem => by
        by_contra hin
        exact hws ⟨w', hmem, by omega⟩
      refine ⟨w.2.getD (x - w.1) 0#8, fun m => ?_⟩
      rw [Memory.storeAll_cons, Memory.byteAt?_storeAll_outside _ hout, Memory.byteAt?_storeBytes, if_pos hw]

/-- Writes inside BUF keep the canonical form. -/
theorem Memory.wf_storeAll {c : Config} {ws : List (Nat × List Byte)} {m : Memory}
    (hws : ∀ w ∈ ws, InBuf c w.1 w.2.length) (hm : Memory.wf c.bufBytes m = true) :
    Memory.wf c.bufBytes (m.storeAll ws) = true := by
  induction ws generalizing m with
  | nil => exact hm
  | cons w ws ih =>
    obtain ⟨hw, hws⟩ := List.forall_mem_cons.1 hws
    exact ih hws (Memory.wf_storeBytes w.2 m w.1 hw hm)

/-! ### What a command does to BUF -/

/-- A command that passes its checks has its ranges in BUF (R104). -/
theorem rangesFit_of_checks {i : Instr} {s : State} (h : firstFailure (commandChecks i s) = none) : rangesFit i s :=
  (rangeChecks_iff i s).1 fun p hp _ => firstFailure_eq_none.1 h p hp

/-- A command keeps BUF canonical, whether it faults or completes. -/
theorem exec_buf_wf {i : Instr} {s t : State} (h : exec i s = .next t)
    (hs : Memory.wf s.cfg.bufBytes s.buf = true) : Memory.wf s.cfg.bufBytes t.buf = true := by
  obtain ⟨c, -, hx⟩ | ⟨hpass, hx⟩ := exec_cases i s <;> rw [hx] at h <;> cases h
  · exact hs
  · obtain ⟨-, hout⟩ := rangesFit_of_checks hpass
    rw [State.complete_buf, commandEffect_buf]
    exact Memory.wf_storeAll (fun w hw => hout _ (mem_outputRanges_of_mem_commandWrites hw)) hs

/-- A command takes no byte of BUF off the list of the written ones. -/
theorem exec_byteAt?_none {i : Instr} {s t : State} {x : Nat} (h : exec i s = .next t)
    (hx : t.buf.byteAt? x = none) : s.buf.byteAt? x = none := by
  obtain ⟨c, -, hexec⟩ | ⟨-, hexec⟩ := exec_cases i s <;> rw [hexec] at h <;> cases h
  · exact hx
  · rw [State.complete_buf, commandEffect_buf] at hx
    exact Memory.byteAt?_of_storeAll_none hx

/-- A completed effect reads as before outside the command's output ranges (R70). -/
theorem commandEffect_byte_outside {i : Instr} {s : State} {x : Nat}
    (h : ∀ r ∈ outputRanges i s, x < r.1 ∨ r.1 + r.2 ≤ x) : (commandEffect i s).byte x = s.byte x := by
  obtain ⟨-, hdraws, -, -⟩ := commandEffect_sameOutside i s
  rw [State.byte_eq, State.byte_eq, hdraws, commandEffect_buf, Memory.byteAt?_storeAll_outside]
  exact fun w hw => h _ (mem_outputRanges_of_mem_commandWrites hw)

/-- Settles O46: a faulting command writes STATUS only, and a completing one, which CMDCNT tells, its output ranges. -/
theorem commandsWriteOnlyTheirRanges : Obligations.CommandsWriteOnlyTheirRanges := by
  unfold Obligations.CommandsWriteOnlyTheirRanges
  intro i s t x h hx
  obtain ⟨c, -, hexec⟩ | ⟨-, hexec⟩ := exec_cases i s <;> rw [hexec] at h <;> cases h
  · rfl
  · rcases hx with houtside | hcount
    · exact commandEffect_byte_outside houtside
    · obtain ⟨hcmdcnt, -, -⟩ := complete_commandEffect_cmdcnt_fault i s
      exact absurd (hcmdcnt.symm.trans hcount) (by simp)

end Sys2Proof.Machine

/-! PROOF. Who writes which register (10_state.md R21, R25 to R41): the host's registers, the results and the STATUS fields
under every command. -/

namespace Sys2Proof.Machine

/-- Settles O43: a fault writes STATUS only, and no effect writes a register the host owns. -/
theorem commandsNeverWriteHostRegisters : Obligations.CommandsNeverWriteHostRegisters := by
  unfold Obligations.CommandsNeverWriteHostRegisters
  intro i s
  obtain ⟨c, -, h⟩ | ⟨-, h⟩ := exec_cases i s
  · exact ⟨_, h, ⟨rfl, rfl, rfl, rfl, rfl, rfl, rfl, rfl, rfl, rfl⟩, rfl, rfl, rfl, rfl⟩
  · exact ⟨_, h, commandEffect_sameHostRegs i s, commandEffect_sameOutside i s⟩

/-- A command keeps the parameter, the draw and the host's side, faulting or not. -/
theorem exec_sameOutside {i : Instr} {s t : State} (h : exec i s = .next t) : SameOutside s t := by
  obtain ⟨u, hu, -, houtside⟩ := commandsNeverWriteHostRegisters i s
  cases h.symm.trans hu
  exact houtside

section Writers

variable (i : Instr) (s : State)

/-- RES is written by the commands that compute a value (R35). -/
theorem commandEffect_res (h : i = .nop ∨ i = .parbuf ∨ i = .mirbuf ∨ i = .cfg ∨ i = .handle) :
    (commandEffect i s).regs.res = s.regs.res := by
  obtain rfl | rfl | rfl | rfl | rfl := h <;> rfl

/-- CRC is written by CRCA and CRCV (R36). -/
theorem commandEffect_crc (h : i ≠ .crca) (h' : i ≠ .crcv) : (commandEffect i s).regs.crc = s.regs.crc := by
  cases i
  case crca => exact absurd rfl h
  case crcv => exact absurd rfl h'
  all_goals rfl

/-- The latched identity and CFG_VALID are written by CFG (R27, R38 to R40). -/
theorem commandEffect_identity (h : i ≠ .cfg) : SameIdentity s.regs (commandEffect i s).regs
    ∧ (commandEffect i s).regs.status.cfgValid = s.regs.status.cfgValid := by
  cases i
  case cfg => exact absurd rfl h
  all_goals exact ⟨⟨rfl, rfl, rfl, rfl, rfl⟩, rfl⟩

/-- RLEN and REPLY are written by HANDLE (R28, R41). -/
theorem commandEffect_rlen_reply (h : i ≠ .handle) : (commandEffect i s).regs.rlen = s.regs.rlen
    ∧ (commandEffect i s).regs.status.reply = s.regs.status.reply := by
  cases i
  case handle => exact absurd rfl h
  all_goals exact ⟨rfl, rfl⟩

/-- VOK is written by CRCV (R29). -/
theorem commandEffect_vok (h : i ≠ .crcv) : (commandEffect i s).regs.status.vok = s.regs.status.vok := by
  cases i
  case crcv => exact absurd rfl h
  all_goals rfl

/-- MISM is written by PARCHK (R29). -/
theorem commandEffect_mism (h : i ≠ .parchk) : (commandEffect i s).regs.status.mism = s.regs.status.mism := by
  cases i
  case parchk => exact absurd rfl h
  all_goals rfl

/-- CLASS is written by CLASSIFY and HANDLE (R28). -/
theorem commandEffect_cls (h : i ≠ .classify) (h' : i ≠ .handle) :
    (commandEffect i s).regs.status.cls = s.regs.status.cls := by
  cases i
  case classify => exact absurd rfl h
  case handle => exact absurd rfl h'
  all_goals rfl

/-- No command clears CFG_VALID (R27). -/
theorem commandEffect_cfgValid (h : s.regs.status.cfgValid = true) :
    (commandEffect i s).regs.status.cfgValid = true := by
  by_cases hi : i = .cfg
  · subst hi; rfl
  · exact (commandEffect_identity i s hi).2.trans h

end Writers

/-- Settles O44: a fault writes STATUS only, and an effect writes what its rule names. -/
theorem resultRegistersHaveTheirWriters : Obligations.ResultRegistersHaveTheirWriters := by
  unfold Obligations.ResultRegistersHaveTheirWriters
  intro i s t h
  obtain ⟨c, -, hx⟩ | ⟨-, hx⟩ := exec_cases i s <;> rw [hx] at h <;> cases h
  · exact ⟨fun _ => rfl, fun _ _ => rfl, fun _ => ⟨rfl, rfl, rfl, rfl, rfl⟩, fun _ => rfl⟩
  · exact ⟨commandEffect_res i s, commandEffect_crc i s, fun hi => (commandEffect_identity i s hi).1,
      fun hi => (commandEffect_rlen_reply i s hi).1⟩

/-- Settles O45: a fault writes FAULT and FCODE only, and an effect writes the fields its rule names. -/
theorem statusFieldsHaveTheirWriters : Obligations.StatusFieldsHaveTheirWriters := by
  unfold Obligations.StatusFieldsHaveTheirWriters
  intro i s t h
  obtain ⟨c, -, hx⟩ | ⟨-, hx⟩ := exec_cases i s <;> rw [hx] at h <;> cases h
  · exact ⟨fun _ => rfl, fun _ => rfl, fun _ _ => rfl, fun _ => rfl, fun _ => rfl, id⟩
  · exact ⟨commandEffect_vok i s, commandEffect_mism i s, commandEffect_cls i s,
      fun hi => (commandEffect_rlen_reply i s hi).2, fun hi => (commandEffect_identity i s hi).2,
      commandEffect_cfgValid i s⟩

end Sys2Proof.Machine

/-! PROOF. What every step keeps: the parameter, the draw, the latched identity, and the invariant (10_state.md R25, R38 to
R41, 00_scope.md R6, 44_responder.md R190, 70_reset_and_hazards.md R262). -/

namespace Sys2Proof.Machine

/-- Everything a step can do: nothing, with no access to make, or the next access. -/
theorem step_cases {s t : State} (h : step s = .next t) : (s.pending = [] ∧ t = s) ∨
    ∃ a rest, s.pending = a :: rest ∧ hostAccess a { s with pending := rest } = .next t := by
  cases hp : s.pending with
  | nil => rw [step_nil hp] at h; cases h; exact .inl ⟨rfl, rfl⟩
  | cons a rest => exact .inr ⟨a, rest, rfl, step_cons hp ▸ h⟩

/-! ### The parameter and the draw -/

/-- No access changes the parameter or the host's list of accesses to come. -/
theorem hostAccess_cfg_pending {a : Access} {s t : State} (h : hostAccess a s = .next t) :
    t.cfg = s.cfg ∧ t.pending = s.pending := by
  obtain ⟨-, rfl | ⟨v, rfl⟩ | ⟨x, b, -, -, rfl⟩ | ⟨v, r, rfl⟩ | ⟨-, rfl⟩ | ⟨v, -, -, rfl⟩ | ⟨w, e, -, -, -, rfl⟩ |
    ⟨w, i, -, -, -, hexec⟩⟩ := hostAccess_cases h
  any_goals exact ⟨rfl, rfl⟩
  obtain ⟨hcfg, -, hpending, -⟩ := exec_sameOutside hexec
  exact ⟨hcfg, hpending⟩

/-- Only a hardware reset draws anew or takes a byte of BUF off the list of the written ones (R262). -/
theorem hostAccess_draws {a : Access} {s t : State} (ha : a ≠ .hardReset) (h : hostAccess a s = .next t) :
    t.draws = s.draws ∧ ∀ x, t.buf.byteAt? x = none → s.buf.byteAt? x = none := by
  obtain ⟨-, rfl | ⟨v, rfl⟩ | ⟨x, b, -, -, rfl⟩ | ⟨v, r, rfl⟩ | ⟨rfl, -⟩ | ⟨v, -, -, rfl⟩ | ⟨w, e, -, -, -, rfl⟩ |
    ⟨w, i, -, -, -, hexec⟩⟩ := hostAccess_cases h
  · exact ⟨rfl, fun _ => id⟩
  · exact ⟨rfl, fun _ => id⟩
  · exact ⟨rfl, fun y hy => Memory.byteAt?_of_storeAll_none (ws := [(x, [b])]) hy⟩
  · exact ⟨rfl, fun _ => id⟩
  · exact absurd rfl ha
  · exact ⟨rfl, fun _ => id⟩
  · exact ⟨rfl, fun _ => id⟩
  · obtain ⟨-, hdraws, -, -⟩ := exec_sameOutside hexec
    exact ⟨hdraws, fun x hx => exec_byteAt?_none hexec hx⟩

/-- A byte unwritten before and after reads as before when the draw is the same. -/
theorem State.byte_eq_of_unwritten {s t : State} {x : Nat} (hdraws : t.draws = s.draws)
    (hs : s.buf.byteAt? x = none) (ht : t.buf.byteAt? x = none) : t.byte x = s.byte x := by
  rw [State.byte_eq, State.byte_eq, hs, ht, hdraws]

/-- Settles O52: no access changes the parameter, and only a hardware reset touches the draw or the unwritten bytes. -/
theorem parameterAndDrawAreFixed : Obligations.ParameterAndDrawAreFixed := by
  unfold Obligations.ParameterAndDrawAreFixed
  intro s t h
  obtain ⟨-, rfl⟩ | ⟨a, rest, hp, h⟩ := step_cases h
  · exact ⟨rfl, fun _ => ⟨rfl, fun _ _ => rfl⟩⟩
  · refine ⟨(hostAccess_cfg_pending h).1, fun hhead => ?_⟩
    obtain ⟨hdraws, hunwritten⟩ := hostAccess_draws (by simpa [hp] using hhead) h
    exact ⟨hdraws, fun x hx => State.byte_eq_of_unwritten hdraws (hunwritten x hx) hx⟩

/-! ### The latched identity -/

theorem SameIdentity.refl (f : RegFile) : SameIdentity f f := ⟨rfl, rfl, rfl, rfl, rfl⟩

/-- An access that is neither a reset nor a CMD write of CFG's word keeps the latched identity (R190). -/
theorem hostAccess_sameIdentity {a : Access} {s t : State} (hcfg : a ≠ .regWrite 0x00 (encode .cfg))
    (hreset : isResetAccess a = false) (h : hostAccess a s = .next t) : SameIdentity s.regs t.regs := by
  obtain ⟨-, rfl | ⟨v, rfl⟩ | ⟨x, b, -, -, rfl⟩ | ⟨v, r, rfl⟩ | ⟨rfl, -⟩ | ⟨v, rfl, hv, -⟩ | ⟨w, e, -, -, -, rfl⟩ |
    ⟨w, i, rfl, -, hdecode, hexec⟩⟩ := hostAccess_cases h
  · exact .refl _
  · exact .refl _
  · exact .refl _
  · exact (store_keeps s.regs v r).2.2.2.2.2
  · cases hreset
  · exact absurd (hreset.symm.trans hv) Bool.false_ne_true
  · exact .refl _
  · have hi : i ≠ .cfg := by
      rintro rfl
      exact hcfg (congrArg (Access.regWrite 0x00) (decode_eq_ok_iff.1 hdecode))
    obtain ⟨-, -, hidentity, -⟩ := resultRegistersHaveTheirWriters i s t hexec
    exact hidentity hi

/-- Settles O51: the word of R190's one writer is CFG's, and every other access keeps the identity. -/
theorem onlyCfgAndResetChangeIdentity : Obligations.OnlyCfgAndResetChangeIdentity := by
  unfold Obligations.OnlyCfgAndResetChangeIdentity
  intro s t h hhead
  obtain ⟨-, rfl⟩ | ⟨a, rest, hp, h⟩ := step_cases h
  · exact .refl _
  · obtain ⟨hcfg, hreset⟩ := hhead a (by simp [hp])
    exact hostAccess_sameIdentity (s := { s with pending := rest }) hcfg hreset h

/-! ### The invariant, register by register -/

/-- FAULT and FCODE tell the same (R25, R231). -/
def FaultNamesCause (f : RegFile) : Prop := f.status.fault = true ↔ f.status.fcode ≠ .none

/-- The latched identity is 0 until CFG has run, and derived from UID and SAK after (R38 to R40). -/
def IdentityLatched (f : RegFile) : Prop :=
  (f.status.cfgValid = false → f.iuid = 0#32 ∧ f.iatqa = 0#16 ∧ f.isak = 0#8 ∧ f.bcc = 0#8 ∧ f.sakcrc = 0#16) ∧
  (f.status.cfgValid = true → f.bcc = bccOf f.iuid ∧ f.sakcrc = sakCrcOf f.isak)

/-- RLEN counts a reply of R181, REPLY tells whether there is one, and only a configured block has replied (R28, R41). -/
def ReplyCounted (f : RegFile) : Prop :=
  (f.rlen = 0#16 ∨ f.rlen = 16#16 ∨ f.rlen = 40#16 ∨ f.rlen = 24#16) ∧
  (f.status.reply = true ↔ f.rlen ≠ 0#16) ∧ (f.status.reply = true → f.status.cfgValid = true)

/-- The invariant's demands on the register file. -/
structure RegInv (f : RegFile) : Prop where
  fault : FaultNamesCause f
  identity : IdentityLatched f
  reply : ReplyCounted f

/-- The invariant is one about the parameter, one about BUF and one about the registers. -/
theorem State.inv_iff (s : State) :
    s.Inv ↔ s.cfg.wellFormed = true ∧ Memory.wf s.cfg.bufBytes s.buf = true ∧ RegInv s.regs := by
  constructor
  · rintro ⟨hcfg, hbuf, hfault, hzero, hbcc, hsakcrc, hrlen, hreply, hconfigured⟩
    exact ⟨hcfg, hbuf, hfault, ⟨hzero, fun h => ⟨hbcc h, hsakcrc h⟩⟩, hrlen, hreply, hconfigured⟩
  · rintro ⟨hcfg, hbuf, hfault, ⟨hzero, hderived⟩, hrlen, hreply, hconfigured⟩
    exact ⟨hcfg, hbuf, hfault, hzero, fun h => (hderived h).1, fun h => (hderived h).2, hrlen, hreply, hconfigured⟩

/-- The reset values have the invariant (R260). -/
theorem regInv_reset : RegInv RegFile.reset := by
  refine ⟨?_, ?_, ?_⟩
  · simp [FaultNamesCause, RegFile.reset, Status.reset]
  · simp [IdentityLatched, RegFile.reset, Status.reset]
  · simp [ReplyCounted, RegFile.reset, Status.reset]

/-- FAULT and FCODE alone decide their part. -/
theorem FaultNamesCause.of_same {f g : RegFile} (h : FaultNamesCause f) (hfault : g.status.fault = f.status.fault)
    (hfcode : g.status.fcode = f.status.fcode) : FaultNamesCause g := by
  unfold FaultNamesCause
  rw [hfault, hfcode]
  exact h

/-- CFG_VALID and the latched identity decide their part. -/
theorem IdentityLatched.of_same {f g : RegFile} (h : IdentityLatched f) (hid : SameIdentity f g)
    (hcfg : g.status.cfgValid = f.status.cfgValid) : IdentityLatched g := by
  obtain ⟨hiuid, hiatqa, hisak, hbcc, hsakcrc⟩ := hid
  unfold IdentityLatched
  rw [hcfg, hiuid, hiatqa, hisak, hbcc, hsakcrc]
  exact h

/-- RLEN and REPLY decide their part, as long as CFG_VALID is not cleared. -/
theorem ReplyCounted.of_same {f g : RegFile} (h : ReplyCounted f) (hrlen : g.rlen = f.rlen)
    (hreply : g.status.reply = f.status.reply) (hcfg : f.status.cfgValid = true → g.status.cfgValid = true) :
    ReplyCounted g := by
  obtain ⟨hvalues, hiff, hconfigured⟩ := h
  unfold ReplyCounted
  rw [hrlen, hreply]
  exact ⟨hvalues, hiff, fun hr => hcfg (hconfigured hr)⟩

/-- A host store keeps the registers' invariant: it writes none of them (R44). -/
theorem regInv_store {f : RegFile} (v : Word) (r : Reg) (h : RegInv f) : RegInv (f.store v r) := by
  obtain ⟨hstatus, -, -, hrlen, -, hid⟩ := store_keeps f v r
  exact ⟨h.fault.of_same (congrArg Status.fault hstatus) (congrArg Status.fcode hstatus),
    h.identity.of_same hid (congrArg Status.cfgValid hstatus),
    h.reply.of_same hrlen (congrArg Status.reply hstatus) (congrArg Status.cfgValid hstatus).trans⟩

/-- A raised fault keeps the registers' invariant: FAULT and a cause are written together (R232). -/
theorem regInv_raise {s : State} {c : FaultCode} (hc : c ≠ .none) (h : RegInv s.regs) : RegInv (s.raise c).regs :=
  ⟨iff_of_true rfl hc, h.identity.of_same (.refl _) rfl, h.reply.of_same rfl rfl id⟩

/-- Every check of a command names a cause (R235). -/
theorem commandChecks_cause {i : Instr} {s : State} {p : Check} (hp : p ∈ commandChecks i s) : p.2 ≠ .none := by
  have hcauses : ∀ q ∈ commandChecks i s, q.2 ≠ .none := by cases i <;> simp [commandChecks]
  exact hcauses p hp

/-- CFG latches BCC and SAKCRC derived from what it latches (R184, R185). -/
theorem commandEffect_identityLatched {i : Instr} {s : State} (h : IdentityLatched s.regs) :
    IdentityLatched (commandEffect i s).regs := by
  by_cases hi : i = .cfg
  · subst hi
    exact ⟨fun hinvalid => absurd hinvalid Bool.noConfusion, fun _ => ⟨rfl, rfl⟩⟩
  · obtain ⟨hid, hcfg⟩ := commandEffect_identity i s hi
    exact h.of_same hid hcfg

/-- A reply has 0, 16, 40 or 24 bits, and 0 exactly for an unknown length (R41, R181). -/
theorem replyOf_bitCount (f : RegFile) (k : FrameClass) {n : Half}
    (hn : n = BitVec.ofNat 16 (8 * (replyOf f k).length)) :
    (n = 0#16 ∨ n = 16#16 ∨ n = 40#16 ∨ n = 24#16) ∧ (decide (k ≠ .unknown) = true ↔ n ≠ 0#16) := by
  subst hn
  cases k <;> simp [replyOf]

/-- HANDLE that passes its checks counts the reply of the class of LEN (R188). -/
theorem handleEffect_replyCounted {s : State} (hcfg : s.regs.status.cfgValid = true) :
    ReplyCounted (commandEffect .handle s).regs := by
  obtain ⟨hvalues, hiff⟩ := replyOf_bitCount s.regs (classify s.count) rfl
  exact ⟨hvalues, hiff, fun _ => hcfg⟩

/-- A command that passes its checks keeps RLEN and REPLY together (R187, R188). -/
theorem commandEffect_replyCounted {i : Instr} {s : State} (hpass : firstFailure (commandChecks i s) = none)
    (h : ReplyCounted s.regs) : ReplyCounted (commandEffect i s).regs := by
  by_cases hi : i = .handle
  · subst hi
    exact handleEffect_replyCounted (firstFailure_eq_none.1 hpass (_, .nocfg) (List.mem_cons_self ..))
  · obtain ⟨hrlen, hreply⟩ := commandEffect_rlen_reply i s hi
    exact h.of_same hrlen hreply (commandEffect_cfgValid i s)

/-- A command keeps the registers' invariant, faulting or not. -/
theorem regInv_exec {i : Instr} {s t : State} (h : exec i s = .next t) (hs : RegInv s.regs) : RegInv t.regs := by
  obtain ⟨c, hfail, hx⟩ | ⟨hpass, hx⟩ := exec_cases i s <;> rw [hx] at h <;> cases h
  · exact regInv_raise (commandChecks_cause (firstFailure_mem hfail)) hs
  · obtain ⟨hfault, hfcode, -⟩ := commandEffect_fault i s
    exact ⟨hs.fault.of_same hfault hfcode, commandEffect_identityLatched hs.identity,
      commandEffect_replyCounted hpass hs.reply⟩

/-- Every access keeps the registers' invariant. -/
theorem hostAccess_regInv {a : Access} {s t : State} (h : hostAccess a s = .next t) (hs : RegInv s.regs) :
    RegInv t.regs := by
  obtain ⟨-, rfl | ⟨v, rfl⟩ | ⟨x, b, -, -, rfl⟩ | ⟨v, r, rfl⟩ | ⟨-, rfl⟩ | ⟨v, -, -, rfl⟩ | ⟨w, e, -, -, -, rfl⟩ |
    ⟨w, i, -, -, -, hexec⟩⟩ := hostAccess_cases h
  · exact hs
  · exact hs
  · exact hs
  · exact regInv_store v r hs
  · exact regInv_reset
  · exact regInv_reset
  · exact regInv_raise (by decide) hs
  · exact regInv_exec hexec hs

/-- Every access keeps BUF canonical: what it writes lies in BUF (20_memory.md R64, R70). -/
theorem hostAccess_buf_wf {a : Access} {s t : State} (h : hostAccess a s = .next t)
    (hs : Memory.wf s.cfg.bufBytes s.buf = true) : Memory.wf s.cfg.bufBytes t.buf = true := by
  obtain ⟨-, rfl | ⟨v, rfl⟩ | ⟨x, b, -, hx, rfl⟩ | ⟨v, r, rfl⟩ | ⟨-, rfl⟩ | ⟨v, -, -, rfl⟩ | ⟨w, e, -, -, -, rfl⟩ |
    ⟨w, i, -, -, -, hexec⟩⟩ := hostAccess_cases h
  · exact hs
  · exact hs
  · exact Memory.wf_store b hx hs
  · exact hs
  · exact Memory.wf_nil _
  · exact hs
  · exact hs
  · exact exec_buf_wf hexec hs

/-- Settles O48: an access keeps the parameter, keeps BUF canonical and keeps the registers' invariant. -/
theorem stepKeepsInvariant : Obligations.StepKeepsInvariant := by
  unfold Obligations.StepKeepsInvariant
  intro s t hs h
  obtain ⟨-, rfl⟩ | ⟨a, rest, -, h⟩ := step_cases h
  · exact hs
  · obtain ⟨hcfg, hbuf, hregs⟩ := (State.inv_iff s).1 hs
    have hparam : t.cfg = s.cfg := (hostAccess_cfg_pending h).1
    rw [State.inv_iff, hparam]
    exact ⟨hcfg, hostAccess_buf_wf (s := { s with pending := rest }) h hbuf,
      hostAccess_regInv (s := { s with pending := rest }) h hregs⟩

/-- Settles O49: the reset state has no byte of BUF listed and every register at its reset value. -/
theorem resetHasInvariant : Obligations.ResetHasInvariant := by
  unfold Obligations.ResetHasInvariant
  have hreset : ∀ c : Config, c.wellFormed = true → (State.resetWith c).Inv := fun c hc =>
    (State.inv_iff _).2 ⟨hc, Memory.wf_nil _, regInv_reset⟩
  exact ⟨hreset Config.ofVectors rfl, hreset⟩

end Sys2Proof.Machine

/-! PROOF. Runs of a faulted block (60_exceptions.md R238, 40_command_cycle.md R101): without a reset nothing a command
writes changes, however long the run. -/

namespace Sys2Proof.Machine

/-- The registers the block itself writes are the same: STATUS, CMDCNT, RES, CRC, RLEN and the latched identity. -/
def SameResults (f g : RegFile) : Prop :=
  g.status = f.status ∧ g.cmdcnt = f.cmdcnt ∧ g.res = f.res ∧ g.crc = f.crc ∧ g.rlen = f.rlen ∧ SameIdentity f g

theorem SameResults.refl (f : RegFile) : SameResults f f := ⟨rfl, rfl, rfl, rfl, rfl, .refl f⟩

theorem SameIdentity.trans {f g h : RegFile} (hfg : SameIdentity f g) (hgh : SameIdentity g h) : SameIdentity f h := by
  obtain ⟨hiuid, hiatqa, hisak, hbcc, hsakcrc⟩ := hgh
  unfold SameIdentity
  rw [hiuid, hiatqa, hisak, hbcc, hsakcrc]
  exact hfg

theorem SameResults.trans {f g h : RegFile} (hfg : SameResults f g) (hgh : SameResults g h) : SameResults f h := by
  obtain ⟨hstatus, hcmdcnt, hres, hcrc, hrlen, hid⟩ := hgh
  unfold SameResults
  rw [hstatus, hcmdcnt, hres, hcrc, hrlen]
  obtain ⟨hstatus', hcmdcnt', hres', hcrc', hrlen', hid'⟩ := hfg
  exact ⟨hstatus', hcmdcnt', hres', hcrc', hrlen', hid'.trans hid⟩

/-- What an access that is no reset leaves of a faulted block: all results, and every byte the host does not write. -/
theorem hostAccess_of_faulted {a : Access} {s t : State} (hs : s.faulted) (ha : isResetAccess a = false)
    (h : hostAccess a s = .next t) :
    SameResults s.regs t.regs ∧ ∀ x, writesBufByte x a = false → t.byte x = s.byte x := by
  have hstarts : s.regs.status.fault ≠ false := ne_false_of_eq_true hs
  obtain ⟨-, rfl | ⟨v, rfl⟩ | ⟨x, b, rfl, -, rfl⟩ | ⟨v, r, rfl⟩ | ⟨rfl, -⟩ | ⟨v, rfl, hv, -⟩ | ⟨w, e, -, hf, -⟩ |
    ⟨w, i, -, hf, -⟩⟩ := hostAccess_cases h
  · exact ⟨.refl _, fun _ _ => rfl⟩
  · exact ⟨.refl _, fun _ _ => rfl⟩
  · refine ⟨.refl _, fun y hy => State.memWrite_byte_outside s x [b] y ?_⟩
    have hne : x ≠ y := by simpa [writesBufByte] using hy
    rw [List.length_singleton]
    omega
  · obtain ⟨hstatus, hres, hcrc, hrlen, hcmdcnt, hid⟩ := store_keeps s.regs v r
    exact ⟨⟨hstatus, hcmdcnt, hres, hcrc, hrlen, hid⟩, fun _ _ => rfl⟩
  · cases ha
  · exact absurd (ha.symm.trans hv) Bool.false_ne_true
  · exact absurd hf hstarts
  · exact absurd hf hstarts

/-- The same of a step, with the accesses still to be made among those that were. -/
theorem step_of_faulted {s t : State} (hs : s.faulted) (hreset : ∀ a ∈ s.pending, isResetAccess a = false)
    (h : step s = .next t) :
    SameResults s.regs t.regs ∧ (∀ x, (∀ a ∈ s.pending, writesBufByte x a = false) → t.byte x = s.byte x)
      ∧ t.pending ⊆ s.pending := by
  obtain ⟨-, rfl⟩ | ⟨a, rest, hp, h⟩ := step_cases h
  · exact ⟨.refl _, fun _ _ => rfl, fun _ => id⟩
  · have ha : a ∈ s.pending := by simp [hp]
    obtain ⟨hresults, hbytes⟩ := hostAccess_of_faulted (s := { s with pending := rest }) hs (hreset a ha) h
    refine ⟨hresults, fun x hx => hbytes x (hx a ha), ?_⟩
    rw [(hostAccess_cfg_pending h).2, hp]
    exact List.subset_cons_self a rest

/-- A run of one step more that ends has its first step and goes on from there. -/
theorem run_succ_cases {k : Nat} {s t : State} (h : Sys2Proof.core.run (k + 1) s = .next t) :
    ∃ u, step s = .next u ∧ Sys2Proof.core.run k u = .next t := by
  cases hstep : step s with
  | next u => exact ⟨u, rfl, run_succ_of_step k hstep ▸ h⟩
  | fault r => cases r
  | refused r =>
    have hstep' : Sys2Proof.core.step s = .refused r := hstep
    simp [Host.Core.run, hstep'] at h

/-- The same of a run, by induction on its length: each step leaves the block faulted and brings no new access. -/
theorem run_of_faulted {n : Nat} {s t : State} (hs : s.faulted) (hreset : ∀ a ∈ s.pending, isResetAccess a = false)
    (h : Sys2Proof.core.run n s = .next t) :
    SameResults s.regs t.regs ∧ ∀ x, (∀ a ∈ s.pending, writesBufByte x a = false) → t.byte x = s.byte x := by
  induction n generalizing s with
  | zero => cases h; exact ⟨.refl _, fun _ _ => rfl⟩
  | succ n ih =>
    obtain ⟨u, hstep, hrest⟩ := run_succ_cases h
    obtain ⟨hresults, hbytes, hpending⟩ := step_of_faulted hs hreset hstep
    have hu : u.faulted := (congrArg Status.fault hresults.1).trans hs
    obtain ⟨hresults', hbytes'⟩ := ih hu (fun a ha => hreset a (hpending ha)) hrest
    exact ⟨hresults.trans hresults', fun x hx => (hbytes' x fun a ha => hx a (hpending ha)).trans (hbytes x hx)⟩

/-- Settles O50: a run of a faulted block leaves all results, and every byte no access to come writes. -/
theorem faultLastsUntilReset : Obligations.FaultLastsUntilReset := by
  unfold Obligations.FaultLastsUntilReset
  intro n s t hs hreset h
  obtain ⟨⟨hstatus, hcmdcnt, hres, hcrc, hrlen, hid⟩, hbytes⟩ := run_of_faulted hs hreset h
  exact ⟨hstatus, hcmdcnt, hres, hcrc, hrlen, hid, hbytes⟩

end Sys2Proof.Machine

/-! PROOF. What the host sees (10_state.md R22 to R30, R43, 20_memory.md R60, R68, R72, 70_reset_and_hazards.md R262): a
hardware reset, register reads, and BUF byte accesses. -/

namespace Sys2Proof.Machine

/-! ### Hardware reset -/

/-- With no byte listed every address reads as the free value of the draw (R262). -/
theorem State.byte_of_buf_nil {s : State} (h : s.buf = []) (x : Nat) : s.byte x = Config.powerOnByte s.draws x := by
  rw [State.byte_eq, h]
  rfl

/-- Settles O55: a hardware reset and the initial states list no byte of BUF. -/
theorem hardwareResetDrawsBuffer : Obligations.HardwareResetDrawsBuffer := by
  unfold Obligations.HardwareResetDrawsBuffer
  refine ⟨fun s rest hp => ?_, rfl, fun c => ⟨rfl, rfl, State.byte_of_buf_nil (State.resetWith_buf c)⟩⟩
  have hstep : step s = .next (State.hardReset { s with pending := rest }) := step_cons hp
  exact ⟨_, hstep, rfl, rfl, rfl, rfl, rfl, State.byte_of_buf_nil (State.hardReset_buf _)⟩

/-! ### Register reads -/

/-- STATUS field by field (R25). -/
theorem statusWord_fields (st : Status) :
    st.word.getLsbD 0 = st.fault ∧ st.word.extractLsb' 1 3 = 0#3 ∧ st.word.extractLsb' 4 4 = st.fcode.code
      ∧ st.word.getLsbD 8 = st.cfgValid ∧ st.word.getLsbD 9 = st.reply
      ∧ st.word.extractLsb' 10 2 = st.cls.code ∧ st.word.getLsbD 12 = st.vok ∧ st.word.getLsbD 13 = st.mism
      ∧ st.word.extractLsb' 14 18 = 0#18 := by
  unfold Status.word
  refine ⟨?_, ?_, ?_, ?_, ?_, ?_, ?_, ?_, ?_⟩
  case refine_1 | refine_4 | refine_5 | refine_7 | refine_8 => 
    rw [append_getLsbD]
    simp only [append_getLsbD]
    simp [-BitVec.getLsbD_eq_getElem]
  case refine_2 | refine_3 | refine_6 | refine_9 =>
    simp only [BitVec.extractLsb'_append_eq_of_le, Nat.reduceLeDiff, Nat.reduceSub,
      BitVec.extractLsb'_append_eq_right, BitVec.extractLsb'_eq_self]

/-- No register stands at or above offset 0x5C (R22, R43). -/
theorem regAt?_reserved {off : Nat} (h : 0x5C ≤ off) : regAt? off = none := by
  have hlast : ∀ r : Reg, regOffset r < 0x5C := by intro r; cases r <;> decide
  cases hr : regAt? off with
  | none => rfl
  | some r => exact absurd (regAt?_some hr ▸ hlast r) (Nat.not_lt.2 h)

/-- CMD, CTRL and the reserved offsets read 0 (R24, R30, R43). -/
theorem readOffset_eq_zero (f : RegFile) {off : Nat} (h : off = 0x00 ∨ off = 0x08 ∨ 0x5C ≤ off) :
    f.readOffset off = 0#32 := by
  obtain rfl | rfl | hreserved := h
  · exact f.readOffset_regOffset .cmd
  · exact f.readOffset_regOffset .ctrl
  · simp [RegFile.readOffset, regAt?_reserved hreserved]

/-- Settles O56: each read is answered from the register map, register by register. -/
theorem registerReadsReturnTheMap : Obligations.RegisterReadsReturnTheMap := by
  unfold Obligations.RegisterReadsReturnTheMap
  intro s rest off hp halign hbound
  refine ⟨s.regs.readOffset off, step_regRead hp ((regOffsetWellFormed_iff off).2 ⟨halign, hbound⟩),
    readOffset_eq_zero s.regs, ?_⟩
  have hread : ∀ r : Reg, ∀ v, s.regs.read r = v → off = regOffset r → s.regs.readOffset off = v := by
    rintro r v rfl rfl
    exact s.regs.readOffset_regOffset r
  refine ⟨fun h => hread .status _ rfl h ▸ statusWord_fields s.regs.status, hread .src _ rfl, hread .dst _ rfl,
    hread .len _ rfl, hread .padr _ rfl, hread .shamt _ rfl, hread .opaLo _ rfl, hread .opaHi _ rfl,
    hread .resLo _ rfl, hread .resHi _ rfl, hread .crc _ rfl, hread .uid _ rfl, hread .atqa _ rfl, hread .sak _ rfl,
    hread .iuid _ rfl, hread .iatqa _ rfl, hread .isak _ rfl, hread .bcc _ rfl, hread .sakcrc _ rfl,
    hread .rlen _ rfl, hread .cmdcnt _ rfl⟩

/-! ### BUF accesses -/

/-- A read of a BUF address is answered with the byte it holds (R60, R68). -/
theorem step_bufRead {s : State} {a : Nat} {rest : List Access} (hp : s.pending = .bufRead a :: rest)
    (ha : a < s.cfg.bufBytes) : step s = .next (State.answer { s with pending := rest } (.buf (s.byte a))) :=
  (step_cons hp).trans (hostAccess_wellFormed (a := .bufRead a) (decide_eq_true ha))

/-- A write of a BUF address is one memory write of one byte (R72). -/
theorem step_bufWrite {s : State} {a : Nat} {b : Byte} {rest : List Access} (hp : s.pending = .bufWrite a b :: rest)
    (ha : a < s.cfg.bufBytes) : step s = .next (State.memWrite { s with pending := rest } a [b]) :=
  (step_cons hp).trans (hostAccess_wellFormed (a := .bufWrite a b) (decide_eq_true ha))

/-- The byte just written reads back. -/
theorem State.memWrite_singleton_byte (s : State) (a : Nat) (b : Byte) : (s.memWrite a [b]).byte a = b :=
  State.memWrite_byte_add s a [b] 0 Nat.zero_lt_one

/-- Settles O60: a read is the byte held, a write is one memory write, and a read after it finds the written byte. -/
theorem bufferWriteThenRead : Obligations.BufferWriteThenRead := by
  unfold Obligations.BufferWriteThenRead
  refine ⟨fun s a rest hp ha => step_bufRead hp ha, fun s a b rest hp ha => ?_, fun s a b rest hp ha => ?_⟩
  · exact ⟨_, step_bufWrite hp ha, rfl, rfl, rfl, rfl, rfl, State.memWrite_singleton_byte _ a b,
      State.memWrite_byte_outside _ a [b]⟩
  · have hrun : Sys2Proof.core.run 2 s = .next _ :=
      (run_succ_of_step 1 (step_bufWrite hp ha)).trans (run_succ_of_step 0 (step_bufRead rfl ha))
    refine ⟨_, hrun, ?_, rfl, rfl, State.memWrite_singleton_byte _ a b, State.memWrite_byte_outside _ a [b], rfl, rfl⟩
    rw [State.answer_returned, State.memWrite_singleton_byte]
    rfl

end Sys2Proof.Machine

/-! PROOF. What a command reads (20_memory.md R70): its checks read no byte of BUF, and its writes and registers depend on the
bytes of its input ranges alone. -/

namespace Sys2Proof.Machine

/-- Two blocks with the same parameter and registers whose BUFs agree on the ranges a command reads. -/
structure AgreeOnInputs (i : Instr) (s s' : State) : Prop where
  cfg : s'.cfg = s.cfg
  regs : s'.regs = s.regs
  bytes : ∀ r ∈ inputRanges i s, ∀ k, k < r.2 → s'.byte (r.1 + k) = s.byte (r.1 + k)

/-! ### Reading equal bytes -/

theorem State.memRead_congr {s s' : State} {a n : Nat} (h : ∀ k, k < n → s'.byte (a + k) = s.byte (a + k)) :
    s'.memRead a n = s.memRead a n :=
  List.map_congr_left fun k hk => h k (List.mem_range.1 hk)

/-- The bits of a BitBuffer are read from its bytes (R200). -/
theorem State.bitAt_congr_of_lt {s s' : State} {a n i : Nat}
    (h : ∀ k, k < (n + 7) / 8 → s'.byte (a + k) = s.byte (a + k)) (hi : i < n) : s'.bitAt a i = s.bitAt a i :=
  State.bitAt_congr (h (i / 8) (by omega))

theorem packBits_congr {m : Nat} {f g : Nat → Bool} (h : ∀ i, i < m → f i = g i) : packBits m f = packBits m g := by
  refine List.map_congr_left fun k _ => congrArg byteOfBits (funext fun j => ?_)
  by_cases hi : 8 * k + j < m
  · rw [h _ hi]
  · simp [hi]

theorem State.littleEndian32_congr {s s' : State} {a : Nat} (h : ∀ k, k < 4 → s'.byte (a + k) = s.byte (a + k)) :
    s'.littleEndian32 a = s.littleEndian32 a := by
  have h0 : s'.byte a = s.byte a := h 0 (by decide)
  rw [State.littleEndian32, h 3 (by decide), h 2 (by decide), h 1 (by decide), h0, State.littleEndian32]

theorem State.littleEndian64_congr {s s' : State} {a : Nat} (h : ∀ k, k < 8 → s'.byte (a + k) = s.byte (a + k)) :
    s'.littleEndian64 a = s.littleEndian64 a := by
  have hhi : s'.littleEndian32 (a + 4) = s.littleEndian32 (a + 4) :=
    State.littleEndian32_congr fun k hk => by rw [Nat.add_assoc, h _ (by omega)]
  rw [State.littleEndian64, hhi, State.littleEndian32_congr fun k hk => h k (by omega), State.littleEndian64]

section Operands

variable {i : Instr} {s s' : State}

/-- The data bytes of a byte command. -/
theorem AgreeOnInputs.memRead (h : AgreeOnInputs i s s')
    (hin : (s.regs.src.toNat, s.regs.len.toNat) ∈ inputRanges i s) :
    s'.memRead s.regs.src.toNat s.regs.len.toNat = s.memRead s.regs.src.toNat s.regs.len.toNat :=
  State.memRead_congr (h.bytes _ hin)

/-- The input bits of a BitBuffer command. -/
theorem AgreeOnInputs.bitAt (h : AgreeOnInputs i s s')
    (hin : (s.regs.src.toNat, (s.regs.len.toNat + 7) / 8) ∈ inputRanges i s) {j : Nat} (hj : j < s.regs.len.toNat) :
    s'.bitAt s.regs.src.toNat j = s.bitAt s.regs.src.toNat j :=
  State.bitAt_congr_of_lt (h.bytes _ hin) hj

end Operands

/-! ### What a command reads -/

/-- The checks read the parameter and the registers (R103, R104). -/
theorem commandChecks_congr {i : Instr} {s s' : State} (hcfg : s'.cfg = s.cfg) (hregs : s'.regs = s.regs) :
    commandChecks i s' = commandChecks i s := by
  obtain ⟨cfg, regs, buf, draws, pending, returned⟩ := s
  obtain ⟨cfg', regs', buf', draws', pending', returned'⟩ := s'
  subst hcfg hregs
  cases i <;> rfl

/-- PARCHK's flags come from the data bytes and the slots (R126). -/
theorem parchkFlags_congr {s s' : State} (h : AgreeOnInputs .parchk s s') : parchkFlags s' = parchkFlags s := by
  have hdata := h.bytes (s.regs.src.toNat, s.regs.len.toNat) (List.mem_cons_self ..)
  have hslot := h.bytes (s.regs.padr.toNat, s.regs.len.toNat) (List.mem_cons_of_mem _ (List.mem_cons_self ..))
  rw [parchkFlags_eq_map_range, parchkFlags_eq_map_range, h.regs]
  refine List.map_congr_left fun k hk => ?_
  rw [List.mem_range] at hk
  rw [slotDisagreesAt, slotDisagreesAt, h.regs, hdata k hk, hslot k hk]

/-- WRAP's stream bits come from the data bits and the slots (R208). -/
theorem wrapBit_congr {s s' : State} (h : AgreeOnInputs .wrap s s') {i : Nat} (hi : i < wrapCount s) :
    wrapBit s' i = wrapBit s i := by
  have hslot := h.bytes (s.regs.padr.toNat, s.regs.len.toNat / 8) (List.mem_cons_of_mem _ (List.mem_cons_self ..))
  rw [wrapCount_eq] at hi
  simp only [wrapBit, State.getBit_eq_bitAt, State.srcAddr_eq, State.padrAddr_eq, State.count_eq, h.regs]
  by_cases hbyte : i / 9 < s.regs.len.toNat / 8
  · rw [if_pos hbyte, if_pos hbyte, hslot _ hbyte]
    exact ite_congr rfl (fun hdata => h.bitAt (List.mem_cons_self ..) (by omega)) fun _ => rfl
  · rw [if_neg hbyte, if_neg hbyte, h.bitAt (List.mem_cons_self ..) (by omega)]

/-- UNWRAP's slots come from the stream bits (R213). -/
theorem unwrapSlots_congr {s s' : State} (h : AgreeOnInputs .unwrap s s') : unwrapSlots s' = unwrapSlots s := by
  simp only [unwrapSlots, State.getBit_eq_bitAt, State.srcAddr_eq, State.count_eq, h.regs]
  refine List.map_congr_left fun j hj => ?_
  rw [List.mem_range] at hj
  rw [h.bitAt (List.mem_cons_self ..) (by omega)]

/-- CRCV recomputes from the data and compares with the trailer, both in its range (R166). -/
theorem crcv_congr {s s' : State} (h : AgreeOnInputs .crcv s s') (hlen : 2 ≤ s.regs.len.toNat) :
    crcvValue s' = crcvValue s ∧ crcvMatches s' = crcvMatches s := by
  have hsrc := h.bytes (s.regs.src.toNat, s.regs.len.toNat) (List.mem_cons_self ..)
  have hvalue : crcvValue s' = crcvValue s := by
    simp only [crcvValue, State.srcAddr_eq, State.count_eq, h.regs]
    rw [State.memRead_congr fun k hk => hsrc k (by omega)]
  refine ⟨hvalue, ?_⟩
  simp only [crcvMatches, hvalue, State.srcAddr_eq, State.count_eq, h.regs]
  rw [hsrc _ (by omega), hsrc _ (by omega)]

/-- The memory writes of a command are decided by its input ranges. -/
theorem commandWrites_congr {i : Instr} {s s' : State} (h : AgreeOnInputs i s s') :
    commandWrites i s' = commandWrites i s := by
  have hregs := h.regs
  cases i with
  | parbuf | mirbuf | crca =>
    simp only [commandWrites, parbufSlots, State.srcAddr_eq, State.dstAddr_eq, State.padrAddr_eq, State.count_eq,
      hregs, h.memRead (List.mem_cons_self ..)]
  | parchk => simp only [commandWrites, parchkFlags_congr h, State.dstAddr_eq, hregs]
  | handle => simp only [commandWrites, handleReply, State.dstAddr_eq, State.count_eq, hregs]
  | bshr =>
    simp only [commandWrites, bshrCount_eq, State.getBit_eq_bitAt, State.srcAddr_eq, State.dstAddr_eq,
      State.shift_eq, hregs]
    rw [packBits_congr fun i hi => h.bitAt (List.mem_cons_self ..) (by omega)]
  | bshl =>
    simp only [commandWrites, bshlCount_eq, State.getBit_eq_bitAt, State.srcAddr_eq, State.dstAddr_eq,
      State.shift_eq, hregs]
    rw [packBits_congr fun i hi =>
      ite_congr rfl (fun _ => rfl) fun hk => h.bitAt (List.mem_cons_self ..) (by omega)]
  | unwrap =>
    simp only [commandWrites, unwrapCount_eq, unwrapSlots_congr h, State.getBit_eq_bitAt, State.srcAddr_eq,
      State.dstAddr_eq, State.padrAddr_eq, hregs]
    rw [packBits_congr fun i hi => h.bitAt (List.mem_cons_self ..) (by omega)]
  | wrap =>
    have hbits : packBits (wrapCount s) (wrapBit s') = packBits (wrapCount s) (wrapBit s) :=
      packBits_congr fun i hi => wrapBit_congr h hi
    rw [wrapCount_eq] at hbits
    simp only [commandWrites, wrapCount_eq, State.dstAddr_eq, hregs, hbits]
  | _ => rfl

/-- The registers a command leaves are decided by the registers and its input ranges. -/
theorem commandEffect_regs_congr {i : Instr} {s s' : State} (h : AgreeOnInputs i s s')
    (hpass : firstFailure (commandChecks i s) = none) : (commandEffect i s').regs = (commandEffect i s).regs := by
  have hregs := h.regs
  cases i with
  | swp32 =>
    have hread := State.littleEndian32_congr (h.bytes (s.regs.src.toNat, 4) (List.mem_cons_self ..))
    simp only [commandEffect, State.setRes_regs, State.srcAddr_eq, hregs, hread]
  | swp64 =>
    have hread := State.littleEndian64_congr (h.bytes (s.regs.src.toNat, 8) (List.mem_cons_self ..))
    simp only [commandEffect, State.setRes_regs, State.srcAddr_eq, hregs, hread]
  | crca =>
    simp only [commandEffect, State.setRes_regs, State.setCrc_regs, State.memWrite_regs, State.srcAddr_eq,
      State.count_eq, hregs, h.memRead (List.mem_cons_self ..)]
  | crcv =>
    have hlen : decide (2 ≤ s.count) = true := firstFailure_eq_none.1 hpass (_, .badlen) (List.mem_cons_self ..)
    obtain ⟨hvalue, hmatches⟩ := crcv_congr h (of_decide_eq_true hlen)
    simp only [commandEffect, State.setRes_regs, State.setCrc_regs, State.setVok_regs, hvalue, hmatches, hregs]
  | parchk =>
    have hcount : parchkCount s' = parchkCount s := congrArg (List.count true) (parchkFlags_congr h)
    simp only [commandEffect, State.setMism_regs, State.setRes_regs, State.memWrite_regs, hregs]
    rw [hcount]
  | _ =>
    obtain ⟨cfg, regs, buf, draws, pending, returned⟩ := s
    obtain ⟨cfg', regs', buf', draws', pending', returned'⟩ := s'
    obtain rfl : regs' = regs := hregs
    rfl

/-- In its output ranges a completed command leaves the bytes it wrote, whatever BUF it wrote them in. -/
theorem commandEffect_byte_inside {i : Instr} {s s' : State} {x : Nat} (h : AgreeOnInputs i s s')
    (hx : ∃ r ∈ outputRanges i s, r.1 ≤ x ∧ x < r.1 + r.2) : (commandEffect i s').byte x = (commandEffect i s).byte x := by
  have hcovered : ∃ w ∈ commandWrites i s, w.1 ≤ x ∧ x < w.1 + w.2.length := by
    obtain ⟨r, hr, hx⟩ := hx
    rw [← commandWrites_ranges] at hr
    obtain ⟨w, hw, rfl⟩ := List.mem_map.1 hr
    exact ⟨w, hw, hx⟩
  obtain ⟨b, hb⟩ := Memory.byteAt?_storeAll_covered hcovered
  rw [State.byte_eq, State.byte_eq, commandEffect_buf, commandEffect_buf, commandWrites_congr h, hb, hb]
  rfl

/-- Settles O47: blocks that agree on a command's inputs fail the same check, or compute the same registers and the same
bytes to write. -/
theorem commandsReadOnlyTheirRanges : Obligations.CommandsReadOnlyTheirRanges := by
  unfold Obligations.CommandsReadOnlyTheirRanges
  intro i s s' hcfg hregs hbytes
  have hagree : AgreeOnInputs i s s' := ⟨hcfg, hregs, hbytes⟩
  have hchecks := commandChecks_congr (i := i) hcfg hregs
  obtain ⟨c, hfail, hx⟩ | ⟨hpass, hx⟩ := exec_cases i s
  · obtain ⟨c', hfail', hx'⟩ | ⟨hpass', -⟩ := exec_cases i s'
    · obtain rfl : c' = c := by simpa [hchecks, hfail, eq_comm] using hfail'
      refine ⟨_, _, hx, hx', ?_, fun hcounted => absurd rfl hcounted⟩
      rw [State.raise_regs, State.raise_regs, hregs]
    · simp [hchecks, hfail] at hpass'
  · have hx' := exec_pass i s' (firstFailure_eq_none.1 (hchecks ▸ hpass))
    refine ⟨_, _, hx, hx', ?_, fun _ r hr k hk => ?_⟩
    · rw [State.complete_regs, State.complete_regs, commandEffect_regs_congr hagree hpass]
    · exact commandEffect_byte_inside hagree ⟨r, hr, by omega⟩

end Sys2Proof.Machine

/-! PROOF. CRC-A by bytes (43_crc_a.md R162 to R166): the shifts are linear, so a step is a shift by eight and a table of the
byte; hence the residue law, and that one changed byte always shows. -/

namespace Sys2Proof.Machine

/-! ### The shifts are linear -/

theorem crcShift_xor (c d : Half) : crcShift (c ^^^ d) = crcShift c ^^^ crcShift d := by
  refine BitVec.eq_of_getLsbD_eq fun i _ => ?_
  simp only [crcShift_getLsbD, BitVec.getLsbD_xor]
  cases c.getLsbD 0 <;> cases d.getLsbD 0 <;> simp [Bool.xor_comm, Bool.xor_left_comm]

theorem crcShifts_xor (n : Nat) (c d : Half) : crcShifts n (c ^^^ d) = crcShifts n c ^^^ crcShifts n d := by
  induction n generalizing c d with
  | zero => rfl
  | succ n ih => rw [crcShifts, crcShift_xor, ih, crcShifts, crcShifts]

/-- Shifting out zeros never meets the polynomial (R160). -/
theorem crcShifts_eq_ushiftRight {n : Nat} {c : Half} (h : ∀ i, i < n → c.getLsbD i = false) :
    crcShifts n c = c >>> n := by
  induction n generalizing c with
  | zero => simp [crcShifts]
  | succ n ih =>
    have hshift : crcShift c = c >>> 1 := if_neg (by simp [-BitVec.getLsbD_eq_getElem, h 0 (Nat.succ_pos n)])
    have hrest : ∀ i, i < n → (c >>> 1).getLsbD i = false := fun i hi => by
      rw [BitVec.getLsbD_ushiftRight, h _ (by omega)]
    rw [crcShifts, hshift, ih hrest, ← BitVec.shiftRight_add, Nat.add_comm]

/-! ### The byte-wise step -/

/-- The step's table: what eight shifts make of a byte (R162). -/
def crcOfByte (t0 : Byte) : Half :=
  ((t0 ^^^ (t0 <<< 4)).setWidth 16 <<< 8) ^^^ ((t0 ^^^ (t0 <<< 4)).setWidth 16 <<< 3)
    ^^^ ((t0 ^^^ (t0 <<< 4)).setWidth 16 >>> 4)

set_option maxRecDepth 100000 in
/-- The table against the shifts, over all bytes. -/
theorem crcShifts_byte : ∀ t0 : Byte, crcShifts 8 (t0.setWidth 16) = crcOfByte t0 := by decide

/-- A register value is its high byte and its low byte. -/
theorem half_eq_high_xor_low (c : Half) : c = ((c >>> 8) <<< 8) ^^^ (c.extractLsb' 0 8).setWidth 16 := by
  refine BitVec.eq_of_getLsbD_eq fun i hi => ?_
  simp only [BitVec.getLsbD_xor, BitVec.getLsbD_shiftLeft, BitVec.getLsbD_ushiftRight, BitVec.getLsbD_setWidth,
    BitVec.getLsbD_extractLsb']
  by_cases h : i < 8
  · simp [h, hi]
  · simp [h, hi, show 8 + (i - 8) = i by omega]

/-- A step shifts the high byte down and looks the exclusive-or of the low byte with the data byte up (R162). -/
theorem crcStep_eq (c : Half) (b : Byte) : crcStep c b = (c >>> 8) ^^^ crcOfByte (b ^^^ c.extractLsb' 0 8) := by
  have hsplit : c ^^^ b.setWidth 16 = ((c >>> 8) <<< 8) ^^^ (b ^^^ c.extractLsb' 0 8).setWidth 16 := by
    conv_lhs => rw [half_eq_high_xor_low c]
    rw [BitVec.setWidth_xor, BitVec.xor_assoc, BitVec.xor_comm (BitVec.setWidth 16 b)]
  have hhigh : crcShifts 8 ((c >>> 8) <<< 8) = c >>> 8 := by
    rw [crcShifts_eq_ushiftRight fun i hi => by simp [hi]]
    refine BitVec.eq_of_getLsbD_eq fun i hi => ?_
    simpa [-BitVec.getLsbD_eq_getElem] using BitVec.lt_of_getLsbD
  rw [crcStep, hsplit, crcShifts_xor, hhigh, crcShifts_byte]

/-- Settles O23: the exclusive-ors of the rule, regrouped. -/
theorem crcStepHasByteWiseForm : Obligations.CrcStepHasByteWiseForm := by
  unfold Obligations.CrcStepHasByteWiseForm
  intro c b
  simp only [crcStep_eq, crcOfByte, BitVec.xor_assoc]

/-! ### The residue -/

/-- A step with the register's own low byte only shifts it out. -/
theorem crcStep_low (c : Half) : crcStep c (c.extractLsb' 0 8) = c >>> 8 := by
  have hzero : crcOfByte 0#8 = 0#16 := rfl
  rw [crcStep_eq, BitVec.xor_self, hzero, BitVec.xor_zero]

/-- The register's own bytes, low then high, bring it to 0 (R164). -/
theorem crcStep_low_high (c : Half) : crcStep (crcStep c (c.extractLsb' 0 8)) (c.extractLsb' 8 8) = 0#16 := by
  have hhigh : c.extractLsb' 8 8 = (c >>> 8).extractLsb' 0 8 := by
    refine BitVec.eq_of_getLsbD_eq fun i hi => ?_
    simp [-BitVec.getLsbD_eq_getElem, BitVec.getLsbD_extractLsb']
  rw [crcStep_low, hhigh, crcStep_low]
  refine BitVec.eq_of_getLsbD_eq fun i _ => ?_
  simp [-BitVec.getLsbD_eq_getElem]

/-- Settles O24: the trailer's two steps shift the register out. -/
theorem crcOfDataAndTrailerIsZero : Obligations.CrcOfDataAndTrailerIsZero := by
  unfold Obligations.CrcOfDataAndTrailerIsZero
  intro s
  rw [List.append_cons, crcA_append, crcA_append, crcStep_low_high]

/-! ### CRCA, then CRCV -/

/-- A byte range is a first part and the rest. -/
theorem State.bytesAt_add (s : State) (a m n : Nat) : s.bytesAt a (m + n) = s.bytesAt a m ++ s.bytesAt (a + m) n := by
  simp [State.bytesAt, List.range_add, Nat.add_assoc]

theorem State.bytesAt_two (s : State) (a : Nat) : s.bytesAt a 2 = [s.byte a, s.byte (a + 1)] := rfl

/-- A buffer that ends in the checksum of what stands before has CRC-A 0 (R164). -/
theorem crcA_bytesAt_eq_zero {s : State} {a n : Nat} {c : Half} (hc : crcA (s.bytesAt a n) = c)
    (hlow : s.byte (a + n) = c.extractLsb' 0 8) (hhigh : s.byte (a + n + 1) = c.extractLsb' 8 8) :
    crcA (s.bytesAt a (n + 2)) = 0#16 := by
  rw [State.bytesAt_add, State.bytesAt_two, hlow, hhigh, ← hc]
  exact crcOfDataAndTrailerIsZero _

/-- CRCV verifies a buffer that ends in the checksum of what stands before, low byte first (R166). -/
theorem exec_crcv_verifies {s : State} {n : Nat} (hlen : s.regs.len.toNat = n + 2)
    (hin : InBuf s.cfg s.regs.src.toNat (n + 2))
    (hlow : s.byte (s.regs.src.toNat + n) = (crcA (s.bytesAt s.regs.src.toNat n)).extractLsb' 0 8)
    (hhigh : s.byte (s.regs.src.toNat + n + 1) = (crcA (s.bytesAt s.regs.src.toNat n)).extractLsb' 8 8) :
    ∃ u, exec .crcv s = .next u ∧ u.regs.status.vok = true ∧ u.regs.crc = crcA (s.bytesAt s.regs.src.toNat n) := by
  obtain ⟨v, hv, hiff⟩ := (crcvComparesTrailer.2 s).1 (by omega) (hlen ▸ hin)
  rw [hlen, Nat.add_sub_cancel] at hiff hv
  exact ⟨_, hv, hiff.2 ⟨hlow, hhigh⟩, rfl⟩

/-- Settles O27: CRCA leaves the data and puts its checksum behind it, where CRCV finds it. -/
theorem crcaThenCrcvVerifies : Obligations.CrcaThenCrcvVerifies := by
  unfold Obligations.CrcaThenCrcvVerifies
  intro s hdst hlen hin
  have hbound : s.regs.src.toNat + (s.regs.len.toNat + 2) ≤ s.cfg.bufBytes := hin.resolve_left (by omega)
  obtain ⟨t, ht, ⟨hcfg, -⟩, hregs, hlow, hhigh, hframe⟩ :=
    (crcaStoresChecksum.2 s).1 (.inr (by omega)) (.inr (by omega))
  have hdata : t.bytesAt s.regs.src.toNat s.regs.len.toNat = s.bytesAt s.regs.src.toNat s.regs.len.toNat :=
    State.memRead_congr fun k hk => hframe _ (.inl (by omega))
  have hsrc : t.regs.src = s.regs.src := by rw [hregs]
  have hcrc : t.regs.crc = crcA (t.bytesAt s.regs.src.toNat s.regs.len.toNat) := by rw [hregs, hdata]
  have hcount : (s.regs.len + 2#16).toNat = s.regs.len.toNat + 2 :=
    BitVec.toNat_add_of_lt (show s.regs.len.toNat + 2 < 2 ^ 16 by omega)
  rw [hdst, ← hdata] at hlow hhigh
  obtain ⟨u, hu, hvok, hucrc⟩ := exec_crcv_verifies
    (s := { t with regs := { t.regs with len := s.regs.len + 2#16 } }) hcount
    (hcfg.symm ▸ hsrc.symm ▸ hin) (hsrc.symm ▸ hlow) (hsrc.symm ▸ hhigh)
  exact ⟨t, ht, u, hu, hvok, (hsrc ▸ hucrc).trans hcrc.symm, crcA_bytesAt_eq_zero rfl hlow hhigh⟩

/-! ### One changed byte -/

/-- The CRC register tells apart what it starts from. -/
theorem foldl_crcStep_injective {l : List Byte} {c d : Half} (h : l.foldl crcStep c = l.foldl crcStep d) : c = d := by
  induction l generalizing c d with
  | nil => exact h
  | cons b l ih => exact crcStep_injective_left (ih h)

/-- Sequences that differ in one byte have different CRC-A. -/
theorem crcA_append_cons_injective {pre post : List Byte} {a b : Byte}
    (h : crcA (pre ++ a :: post) = crcA (pre ++ b :: post)) : a = b := by
  simp only [crcA, List.foldl_append, List.foldl_cons] at h
  exact crcStep_injective_right (foldl_crcStep_injective h)

/-- A byte range, cut at one of its bytes. -/
theorem State.bytesAt_cut (s : State) (a : Nat) {p n : Nat} (hp : p < n) :
    s.bytesAt a n = s.bytesAt a p ++ s.byte (a + p) :: s.bytesAt (a + p + 1) (n - p - 1) := by
  obtain ⟨m, rfl⟩ : ∃ m, n = p + (1 + m) := ⟨n - p - 1, by omega⟩
  rw [State.bytesAt_add, State.bytesAt_add, show p + (1 + m) - p - 1 = m by omega]
  rfl

/-- Byte ranges that differ in exactly one byte have different CRC-A. -/
theorem crcA_bytesAt_ne {s s' : State} {a p n : Nat} (hp : p < n) (hne : s'.byte (a + p) ≠ s.byte (a + p))
    (hsame : ∀ k, k < n → k ≠ p → s'.byte (a + k) = s.byte (a + k)) :
    crcA (s'.bytesAt a n) ≠ crcA (s.bytesAt a n) := by
  have hpre : s'.bytesAt a p = s.bytesAt a p := State.memRead_congr fun k hk => hsame k (by omega) (by omega)
  have hpost : s'.bytesAt (a + p + 1) (n - p - 1) = s.bytesAt (a + p + 1) (n - p - 1) :=
    State.memRead_congr fun k hk => by
      rw [show a + p + 1 + k = a + (p + 1 + k) by omega, hsame _ (by omega) (by omega)]
  rw [State.bytesAt_cut s' a hp, State.bytesAt_cut s a hp, hpre, hpost]
  exact fun h => hne (crcA_append_cons_injective h)

/-- A CRCV with a valid length and range completes, and where it verifies the whole range has CRC-A 0 (R164, R166). -/
theorem exec_crcv_completes {s : State} (hlen : 2 ≤ s.regs.len.toNat)
    (hin : InBuf s.cfg s.regs.src.toNat s.regs.len.toNat) : ∃ t, exec .crcv s = .next t ∧
      (t.regs.status.vok = true → crcA (s.bytesAt s.regs.src.toNat s.regs.len.toNat) = 0#16) := by
  obtain ⟨v, hv, hiff⟩ := (crcvComparesTrailer.2 s).1 hlen hin
  refine ⟨_, hv, fun hvok => ?_⟩
  obtain ⟨hlow, hhigh⟩ := hiff.1 hvok
  obtain ⟨n, hn⟩ : ∃ n, s.regs.len.toNat = n + 2 := ⟨s.regs.len.toNat - 2, by omega⟩
  rw [hn, Nat.add_sub_cancel] at hlow hhigh
  rw [hn]
  exact crcA_bytesAt_eq_zero rfl hlow hhigh

/-- Settles O28: two verified buffers both have CRC-A 0, which one changed byte rules out. -/
theorem crcvRejectsOneChangedByte : Obligations.CrcvRejectsOneChangedByte := by
  unfold Obligations.CrcvRejectsOneChangedByte
  rintro s s' p hlen hin hregs hcfg hp hne hsame ⟨t, ht, hvok⟩
  obtain ⟨u, hu, hzero⟩ := exec_crcv_completes hlen hin
  obtain ⟨t', ht', hzero'⟩ := exec_crcv_completes (s := s') (hregs ▸ hlen) (hregs ▸ hcfg ▸ hin)
  cases ht.symm.trans hu
  refine ⟨t', ht', Bool.eq_false_iff.2 fun hvok' => crcA_bytesAt_ne hp hne hsame ?_⟩
  rw [hregs] at hzero'
  exact (hzero' hvok').trans (hzero hvok).symm

end Sys2Proof.Machine

/-! PROOF. The reply as a function of LEN and the latched identity (44_responder.md R182, R190). -/

namespace Sys2Proof.Machine

/-- The reply bytes come from the latched identity and the class alone (R181, R182). -/
theorem replyOf_congr {f g : RegFile} (h : SameIdentity f g) (k : FrameClass) : replyOf g k = replyOf f k := by
  obtain ⟨hiuid, hiatqa, hisak, hbcc, hsakcrc⟩ := h
  cases k <;> simp only [replyOf, hiuid, hiatqa, hisak, hbcc, hsakcrc]

/-- A configured HANDLE whose reply fits completes (R187). -/
theorem exec_handle_of_configured {s : State} (hcfg : s.regs.status.cfgValid = true)
    (hin : InBuf s.cfg s.regs.dst.toNat (replyBytes s.regs.len.toNat)) :
    exec .handle s = .next (commandEffect .handle s).complete :=
  exec_pass .handle s (firstFailure_eq_none.1 (by simp [handle_firstFailure, hcfg, hin]))

/-- Settles O32: RLEN, CLASS and REPLY come from LEN, and the reply at DST from LEN and the identity. -/
theorem replyDependsOnLengthAndIdentity : Obligations.ReplyDependsOnLengthAndIdentity := by
  unfold Obligations.ReplyDependsOnLengthAndIdentity
  intro s s' hcfg hcfg' hid hlen hdst hin hin'
  have hcount : s'.count = s.count := congrArg BitVec.toNat hlen
  have hreply : handleReply s' = handleReply s := by rw [handleReply, handleReply, hcount, replyOf_congr hid]
  refine ⟨_, _, exec_handle_of_configured hcfg hin,
    exec_handle_of_configured hcfg' (by rw [hlen, hdst]; exact hin'), ?_, ?_, ?_, ?_⟩
  · rw [handleEffect_regs, handleEffect_regs, hlen]
  · rw [handleEffect_regs, handleEffect_regs, hcount]
  · rw [handleEffect_regs, handleEffect_regs, hcount]
  · have hbytes' := handleEffect_bytesAt s'
    rw [hreply, hdst] at hbytes'
    rw [← handleReply_length, hbytes', handleEffect_bytesAt]

end Sys2Proof.Machine

/-! PROOF. The laws of the BitBuffer commands (45_bitbuffer.md R206, R214): one command on the output of another, bit by bit
from what each of the two writes. -/

namespace Sys2Proof.Machine

/-- A 16-bit register holds a count of at most 65535 as it is (R32). -/
theorem toNat_ofNat_half {n : Nat} (h : n ≤ 65535) : (BitVec.ofNat 16 n).toNat = n := by
  rw [BitVec.toNat_ofNat]
  omega

/-! ### Shifts (R206) -/

/-- Settles O38: BSHR drops the zeros BSHL put in front. -/
theorem bshrUndoesBshl : Obligations.BshrUndoesBshl := by
  unfold Obligations.BshrUndoesBshl
  intro s d n k hn hk hlen hsrc hdst hd
  obtain ⟨t, ht, ⟨hcfg, -⟩, hregs, -, hbits, -⟩ := (bshlPrependsZeroBits.2 s n k hn hk).1 hlen hsrc hdst
  have hshamt : t.regs.shamt = s.regs.shamt := by rw [hregs]
  obtain ⟨u, hu, -, huregs, hubits, hupad, -⟩ := (bshrDropsLeadingBits.2
    { t with regs := { t.regs with src := s.regs.dst, len := BitVec.ofNat 16 (n + k), dst := d } } (n + k) k n
    (toNat_ofNat_half hlen).symm (hshamt ▸ hk) (by rw [if_pos (by omega), Nat.add_sub_cancel])).1
    (hcfg ▸ hdst) (hcfg ▸ hd)
  refine ⟨t, ht, u, hu, by rw [huregs], fun i hi => ?_, hupad⟩
  have hbit := hbits (i + k) (by omega) (by omega)
  rw [Nat.add_sub_cancel] at hbit
  exact (hubits i hi).trans hbit

/-- Settles O39: BSHL puts zeros where BSHR dropped the first bits. -/
theorem bshlAfterBshrClearsLeadingBits : Obligations.BshlAfterBshrClearsLeadingBits := by
  unfold Obligations.BshlAfterBshrClearsLeadingBits
  intro s d n k hn hk hkn hsrc hdst hd
  have hbound : n ≤ 65535 := by omega
  obtain ⟨t, ht, ⟨hcfg, -⟩, hregs, hbits, -⟩ :=
    (bshrDropsLeadingBits.2 s n k (n - k) hn hk (if_pos hkn).symm).1 hsrc hdst
  have hshamt : t.regs.shamt = s.regs.shamt := by rw [hregs]
  obtain ⟨u, hu, -, huregs, huzero, hubits, -⟩ := (bshlPrependsZeroBits.2
    { t with regs := { t.regs with src := s.regs.dst, len := BitVec.ofNat 16 (n - k), dst := d } } (n - k) k
    (toNat_ofNat_half (by omega)).symm (hshamt ▸ hk)).1 (by omega) (hcfg ▸ hdst)
    (by rw [Nat.sub_add_cancel hkn]; exact hcfg ▸ hd)
  rw [Nat.sub_add_cancel hkn] at huregs hubits
  refine ⟨t, ht, u, hu, by rw [huregs], fun i hi => ?_⟩
  by_cases hik : k ≤ i
  · have hbit := hbits (i - k) (by omega)
    rw [Nat.sub_add_cancel hik] at hbit
    rw [decide_eq_true hik, Bool.true_and]
    exact (hubits i hik hi).trans hbit
  · rw [decide_eq_false hik, Bool.false_and]
    exact huzero i (by omega)

/-- Settles O40: both ways an output bit is the input bit k1 + k2 further on. -/
theorem bshrComposes : Obligations.BshrComposes := by
  unfold Obligations.BshrComposes
  intro s d k2 n k1 hn hk1 hk hsrc hdst hd
  obtain ⟨t, ht, ⟨hcfg, -⟩, hregs, hbits, -⟩ :=
    (bshrDropsLeadingBits.2 s n k1 (n - k1) hn hk1 (by split_ifs <;> omega)).1 hsrc hdst
  obtain ⟨u, hu, -, huregs, hubits, hupad, -⟩ := (bshrDropsLeadingBits.2
    { t with regs := { t.regs with src := s.regs.dst, len := BitVec.ofNat 16 (n - k1), dst := d, shamt := k2 } }
    (n - k1) k2.toNat (n - (k1 + k2.toNat)) (toNat_ofNat_half (by omega)).symm rfl (by split_ifs <;> omega)).1
    (hcfg ▸ hdst) (hcfg ▸ hd)
  have hshamt : (s.regs.shamt + k2).toNat = k1 + k2.toNat :=
    hk1 ▸ BitVec.toNat_add_of_lt (show s.regs.shamt.toNat + k2.toNat < 2 ^ 16 by omega)
  obtain ⟨v, hv, -, hvregs, hvbits, hvpad, -⟩ := (bshrDropsLeadingBits.2
    { s with regs := { s.regs with dst := d, shamt := s.regs.shamt + k2 } }
    n (k1 + k2.toNat) (n - (k1 + k2.toNat)) hn hshamt.symm (by split_ifs <;> omega)).1 hsrc hd
  refine ⟨t, ht, u, v, hu, hv, by rw [huregs, hvregs], fun i hi => ?_⟩
  by_cases hin : i < n - (k1 + k2.toNat)
  · have hbit := hbits (i + k2.toNat) (by omega)
    rw [Nat.add_assoc, Nat.add_comm k2.toNat] at hbit
    exact ((hubits i hin).trans hbit).trans (hvbits i hin).symm
  · exact (hupad i (by omega) hi).trans (hvpad i (by omega) hi).symm

/-! ### Parity framing (R214) -/

/-- Settles O41: UNWRAP finds each data bit and each parity bit where WRAP put it. -/
theorem unwrapUndoesWrap : Obligations.UnwrapUndoesWrap := by
  unfold Obligations.UnwrapUndoesWrap
  intro s d p n q hn hq hbound hsrc hpadr hdst hd hp hapart
  obtain ⟨t, ht, ⟨hcfg, -⟩, -, hdata, hslot, hresidue, -⟩ :=
    (wrapInterleavesParity.2 s n q hn hq).1 (by omega) hsrc hpadr hdst
  have hq' : q = (n + q) / 9 := by omega
  have hn' : n = 8 * q + (n + q) % 9 := by omega
  obtain ⟨u, hu, -, huregs, huslot, hudata, -⟩ := (unwrapSplitsStream.2
    { t with regs := { t.regs with src := s.regs.dst, len := BitVec.ofNat 16 (n + q), dst := d, padr := p } }
    (n + q) q n (toNat_ofNat_half (by omega)).symm hq' hn').1 (by omega) (hcfg ▸ hdst) (hcfg ▸ hd) (hcfg ▸ hp)
  have hstream : ∀ i, i < n → t.bitAt s.regs.dst.toNat (9 * (i / 8) + i % 8) = s.bitAt s.regs.src.toNat i := by
    intro i hi
    by_cases hbyte : i / 8 < q
    · rw [hdata _ _ hbyte (Nat.mod_lt i (by decide)), Nat.div_add_mod]
    · rw [show i / 8 = q by omega, hresidue _ (by omega), show 8 * q + i % 8 = i by omega]
  refine ⟨t, ht, u, hu, by rw [huregs], fun i hi => ?_, fun j hj => ?_⟩
  · have houtside : d.toNat + i / 8 < p.toNat ∨ p.toNat + q ≤ d.toNat + i / 8 := by omega
    refine (hudata i hi houtside).trans ?_
    by_cases hin : i < n
    · exact congrArg (decide (i < n) && ·) (hstream i hin)
    · rw [decide_eq_false hin, Bool.false_and, Bool.false_and]
  · rw [← hslot j hj]
    exact huslot j hj

/-- Settles O42: WRAP puts each data bit and each parity bit back where UNWRAP found it. -/
theorem wrapUndoesUnwrap : Obligations.WrapUndoesUnwrap := by
  unfold Obligations.WrapUndoesUnwrap
  intro s d m q n hm hq hn hvalid hsrc hdst hpadr hd hapart
  have hbound : m ≤ 65535 := by omega
  have hq' : q = n / 8 := by omega
  have hm' : n + q = m := by omega
  obtain ⟨t, ht, ⟨hcfg, -⟩, hregs, htslot, htdata, -⟩ :=
    (unwrapSplitsStream.2 s m q n hm hq hn).1 hvalid hsrc hdst hpadr
  have hpadr' : t.regs.padr = s.regs.padr := by rw [hregs]
  obtain ⟨u, hu, -, huregs, hudata, huslot, huresidue, -⟩ := (wrapInterleavesParity.2
    { t with regs := { t.regs with src := s.regs.dst, len := BitVec.ofNat 16 n, dst := d } }
    n q (toNat_ofNat_half (by omega)).symm hq').1 (by omega) (hcfg ▸ hdst) (hcfg ▸ hpadr' ▸ hpadr)
    (by rw [hm']; exact hcfg ▸ hd)
  have hdata : ∀ j b, 8 * j + b < n → b < 8 →
      t.bitAt s.regs.dst.toNat (8 * j + b) = s.bitAt s.regs.src.toNat (9 * j + b) := by
    intro j b hin hb
    rw [htdata _ (by omega) (by omega), decide_eq_true hin, Bool.true_and,
      show (8 * j + b) / 8 = j by omega, show (8 * j + b) % 8 = b by omega]
  have hslot : ∀ j, j < q → (t.byte (s.regs.padr.toNat + j)).getLsbD 0 = s.bitAt s.regs.src.toNat (9 * j + 8) := by
    intro j hj
    rw [htslot j hj]
    cases s.bitAt s.regs.src.toNat (9 * j + 8) <;> rfl
  refine ⟨t, ht, u, hu, by rw [huregs, hm'], fun i hi => ?_⟩
  rw [← Nat.div_add_mod i 9]
  by_cases hwhole : i / 9 < q
  · by_cases hbit : i % 9 < 8
    · exact (hudata _ _ hwhole hbit).trans (hdata _ _ (by omega) hbit)
    · rw [show i % 9 = 8 by omega]
      exact (huslot _ hwhole).trans (hpadr' ▸ hslot _ hwhole)
  · rw [show i / 9 = q by omega]
    exact (huresidue _ (by omega)).trans (hdata _ _ (by omega) (by omega))

end Sys2Proof.Machine
